-- ==== Sys2Proof/Word.lean ====
section
/-! DEFINITION. The word types: every value of the engine is an unsigned bit vector of its stated width (spec/00_scope.md R8). -/

namespace Sys2Proof

/-- An 8-bit value: one byte of the packet buffer or of a streamed sequence. -/
abbrev Byte := BitVec 8

/-- A 16-bit value: a checksum, a summed word, a 16-bit header field. -/
abbrev Half := BitVec 16

/-- A 32-bit value: a host register (`REG_W`, R5) or a command word (R80). -/
abbrev Word := BitVec 32

end Sys2Proof
end

