-- ==== Sys2Proof/Syntax.lean ====
section
/-! DEFINITION. The command set: one constructor for each row of spec/opcode_table.json, and the sixteen header fields the
field encoder names (spec/30_encoding.md R82, R90). -/

namespace Sys2Proof

/-- A command of the engine. The operands are the plain unsigned numbers of spec/30_encoding.md R81; value operands are never
in the command word, they come from `DATA`. -/
inductive Instr where
  /-- NOP, OP 0x00 (spec/44_control.md R190). -/
  | nop
  /-- CLR, OP 0x01 (spec/40_checksum_engine.md R103). -/
  | clr
  /-- FEED8, OP 0x02 (R105). -/
  | feed8
  /-- FEED16, OP 0x03 (R106). -/
  | feed16
  /-- FEED32, OP 0x04 (R107). -/
  | feed32
  /-- FINAL, OP 0x05 (R110). -/
  | final
  /-- PKTZ, OP 0x10 (spec/41_packet_assembler.md R130). -/
  | pktz
  /-- BUILD, OP 0x11 (spec/42_header_builder.md R141). -/
  | build
  /-- INSICMP, OP 0x12 (spec/43_checksum_install.md R170). -/
  | insicmp
  /-- INSIP, OP 0x13 (R172). -/
  | insip
  /-- CSUMBUF, OP 0x14, with `OFF` in `A` and `LEN` in `B` (spec/40_checksum_engine.md R113). -/
  | csumbuf (off len : Nat)
  /-- FSET, OP 0x20, with `FID` in `A` (spec/42_header_builder.md R150). -/
  | fset (fid : Nat)
  /-- FGET, OP 0x21, with `FID` in `A` (R160). -/
  | fget (fid : Nat)
  deriving DecidableEq, Repr

/-- The header fields of spec/30_encoding.md R90, in the order of their field ids. -/
inductive Field where
  | ipVer | ipIhl | ipTos | ipLen | ipId | ipFrag | ipTtl | ipProto | ipSum | ipSrc | ipDst
  | icmpType | icmpCode | icmpSum | icmpId | icmpSeq
  deriving DecidableEq, Repr

end Sys2Proof
end

