-- ==== Sys2Proof/WellFormed.lean ====
section
/-! DEFINITION. Which terms of `Instr` a command word can express: every operand fits its 8-bit field
(spec/30_encoding.md R80, R81). Whether an operand is in RANGE, or is a field id of the table, is checked when the command runs
(R84), not here. -/

namespace Sys2Proof

/-- An operand field is 8 bits wide (spec/30_encoding.md R80). -/
abbrev fitsOperand (n : Nat) : Bool := decide (n < 256)

/-- The operands of `i` fit the command format. -/
def Instr.wellFormed : Instr → Bool
  | .nop | .clr | .feed8 | .feed16 | .feed32 | .final | .pktz | .build | .insicmp | .insip => true
  | .csumbuf off len => fitsOperand off && fitsOperand len
  | .fset fid => fitsOperand fid
  | .fget fid => fitsOperand fid

end Sys2Proof
end

