-- ==== Sys2Proof/Decode.lean ====
section
/-! DEFINITION. The command format, the decoder and the encoder (spec/30_encoding.md R80 to R85). A command is exactly one
32-bit word; there is no other length. -/

namespace Sys2Proof

/-- Why a word is no command (spec/30_encoding.md R83, R84). -/
inductive DecodeError where
  /-- `OP` is not in the opcode map. -/
  | illegalOp
  /-- `RSV`, or an operand field the command does not use, is not zero. -/
  | reservedField
  deriving DecidableEq, Repr

/-- Bits [7:0] of a command word (R80). -/
def wordOp (w : Word) : Nat := (w.extractLsb' 0 8).toNat

/-- Bits [15:8] of a command word (R80). -/
def wordA (w : Word) : Nat := (w.extractLsb' 8 8).toNat

/-- Bits [23:16] of a command word (R80). -/
def wordB (w : Word) : Nat := (w.extractLsb' 16 8).toNat

/-- Bits [31:24] of a command word (R80). -/
def wordRsv (w : Word) : Nat := (w.extractLsb' 24 8).toNat

/-- The opcode map of R82, with the operands placed as R81 says. -/
def instrOfOp (op a b : Nat) : Option Instr :=
  match op with
  | 0x00 => some .nop
  | 0x01 => some .clr
  | 0x02 => some .feed8
  | 0x03 => some .feed16
  | 0x04 => some .feed32
  | 0x05 => some .final
  | 0x10 => some .pktz
  | 0x11 => some .build
  | 0x12 => some .insicmp
  | 0x13 => some .insip
  | 0x14 => some (.csumbuf a b)
  | 0x20 => some (.fset a)
  | 0x21 => some (.fget a)
  | _ => none

/-- The opcodes whose command uses field `A` (R84). -/
def usesA (op : Nat) : Bool := op == 0x14 || op == 0x20 || op == 0x21

/-- The opcode whose command uses field `B` (R84). -/
def usesB (op : Nat) : Bool := op == 0x14

/-- `Decode(w)` of R84: the opcode check first, then the reserved-field check. -/
def decode (w : Word) : Except DecodeError Instr :=
  match instrOfOp (wordOp w) (wordA w) (wordB w) with
  | none => .error .illegalOp
  | some i =>
    if wordRsv w ≠ 0 ∨ (usesA (wordOp w) = false ∧ wordA w ≠ 0) ∨ (usesB (wordOp w) = false ∧ wordB w ≠ 0) then
      .error .reservedField
    else .ok i

/-- The instruction the decoder reads from a word numbered as spec/opcode_table.json numbers it; every bit from `nbits` up is 0. -/
def decodeTableWord (nbits w : Nat) : Option Instr :=
  match decode (BitVec.ofNat 32 (w % 2 ^ nbits)) with
  | .ok i => some i
  | .error _ => none

/-- The `OP` column of R82. -/
def opOf : Instr → Byte
  | .nop => 0x00
  | .clr => 0x01
  | .feed8 => 0x02
  | .feed16 => 0x03
  | .feed32 => 0x04
  | .final => 0x05
  | .pktz => 0x10
  | .build => 0x11
  | .insicmp => 0x12
  | .insip => 0x13
  | .csumbuf _ _ => 0x14
  | .fset _ => 0x20
  | .fget _ => 0x21

/-- What stands in field `A` (R80): `OFF` of CSUMBUF, `FID` of FSET and FGET, else 0. -/
def operandA : Instr → Nat
  | .csumbuf off _ => off
  | .fset fid => fid
  | .fget fid => fid
  | .nop | .clr | .feed8 | .feed16 | .feed32 | .final | .pktz | .build | .insicmp | .insip => 0

/-- What stands in field `B` (R80): `LEN` of CSUMBUF, else 0. -/
def operandB : Instr → Nat
  | .csumbuf _ len => len
  | .fset _ | .fget _ => 0
  | .nop | .clr | .feed8 | .feed16 | .feed32 | .final | .pktz | .build | .insicmp | .insip => 0

/-- The command word: RSV zero, then `B`, `A` and `OP` (R80). -/
def encode (i : Instr) : Word :=
  0#8 ++ (BitVec.ofNat 8 (operandB i) ++ (BitVec.ofNat 8 (operandA i) ++ opOf i))

end Sys2Proof
end

