-- ==== Sys2Proof/Config.lean ====
section
/-! DEFINITION. The implementation parameters of spec/00_scope.md R5. `CKE_BASE`, the one OPEN parameter, is an argument
of `Sys2Proof.Machine.platformAccess` and so has no definition here (log entry 5). The spec leaves no value free, so there is
no uninterpreted constant. -/

namespace Sys2Proof.Config

/-- `IP_HLEN`: 5 words of 32 bits (R5). -/
def ipHlen : Nat := 20

/-- `ICMP_HLEN` (R5). -/
def icmpHlen : Nat := 8

/-- `PAYLOAD_LEN`: no payload in this revision (R5, spec/93_implementation_defined.md item 4). -/
def payloadLen : Nat := 0

/-- `PKT_LEN` = `IP_HLEN + ICMP_HLEN`, and no payload (R5). -/
def pktLen : Nat := ipHlen + icmpHlen + payloadLen

/-- `ICMP_OFF`: the ICMP header follows the IPv4 header at once (R5). -/
def icmpOff : Nat := ipHlen

/-- `NUM_FIELDS`: the field ids are 0 to 15 (R5). -/
def numFields : Nat := 16

/-- `SAFE_BYTES`: the largest byte count whose sum cannot carry out of a 32-bit accumulator (R5). -/
def safeBytes : Nat := 131074

/-- The size of the register space: offsets 0x00 to 0x5F (spec/20_memory.md R50). -/
def spaceSize : Nat := 0x60

/-- The offset of the packet window (spec/20_memory.md R53). -/
def windowOff : Nat := 0x40

end Sys2Proof.Config
end

