-- ==== Sys2Proof/Machine/State.lean ====
section
/-! DEFINITION. The state: the engine, which is exactly what spec/10_state.md R20 lists, and beside it the host's side of the
one port (what the port takes next, and the read values it has given back). All of it is plain data. -/

namespace Sys2Proof.Machine

/-- The three widths an access of the port has: `n` is 1, 2 or 4 bytes (spec/20_memory.md R50, R59; log entry 9). -/
inductive Width where
  | byte | half | word
  deriving DecidableEq, Repr

/-- The value of one access: what a read of some width returns, or what a write of that width carries. -/
inductive Value where
  | byte (v : Byte)
  | half (v : Half)
  | word (v : Word)
  deriving DecidableEq, Repr

/-- A byte offset of the register space, 0x00 to 0x5F from `CKE_BASE` (spec/20_memory.md R50, R51). -/
abbrev Offset := Fin 0x60

/-- One host access (spec/00_scope.md R6): a read of some width at an offset, or a write of a value there. A command is a
32-bit write at offset 0x00. -/
inductive Access where
  | read (n : Width) (off : Offset)
  | write (off : Offset) (v : Value)
  deriving DecidableEq, Repr

/-- What the port takes in one step: an access of one of the host agents, or the platform's reset, which is a step of its own
ordered with the accesses (spec/70_reset_and_hazards.md R230; log entry 6). The agent's number is the host's; the engine has no
agent identifiers (spec/60_exceptions.md R215). -/
inductive PortEvent where
  | access (agent : Nat) (a : Access)
  | reset
  deriving DecidableEq, Repr

/-- A value a read gave back to an agent (spec/00_scope.md R6). -/
structure Reply where
  agent : Nat
  value : Value
  deriving DecidableEq, Repr

/-- The packet buffer's contents: the bytes that are not 0x00, by their index in `PKT`, indexes strictly rising (log entry 8). -/
abbrev Memory := List Host.Cell

/-- What an unlisted byte of the buffer reads as: the reset contents of `PKT` (spec/10_state.md R41). -/
def unlistedByte : Byte := 0x00

/-- The canonical form: indexes strictly rising and inside `PKT[0..27]`, no cell equal to what an unlisted byte reads as. -/
def Memory.wf (m : Memory) : Bool :=
  decide (m.Pairwise fun c d => c.1 < d.1) && m.all fun c => decide (c.1 < Config.pktLen) && decide (c.2 ≠ unlistedByte)

/-- The engine's state: the rows of spec/10_state.md R20 that hold storage. `STATUS` is its four stored fields and `PEND`;
`ODD`, `WIRELEN` and `CMD` hold nothing (R26, R29, R38). -/
@[ext] structure Engine where
  /-- `DATA` (R22). -/
  data  : Word
  /-- `SRC` (R23). -/
  src   : Word
  /-- `DST` (R24). -/
  dst   : Word
  /-- `PID` (R25). -/
  pid   : Word
  /-- `CSUM` (R34). -/
  csum  : Word
  /-- `ACC` (R35). -/
  acc   : Word
  /-- `CNT` (R36). -/
  cnt   : Word
  /-- `PEND` (R32). -/
  pend  : Byte
  /-- `STATUS.ZERO` (R27). -/
  zero  : Bool
  /-- `STATUS.OVF` (R28). -/
  ovf   : Bool
  /-- `STATUS.ERR` (R30). -/
  err   : Bool
  /-- `STATUS.ECODE` (R31). -/
  ecode : BitVec 4
  /-- `FVAL` (R39). -/
  fval  : Word
  /-- `EINFO` (R40). -/
  einfo : Word
  /-- `PKT[0..27]` (R41). -/
  pkt   : Memory
  deriving DecidableEq, Repr

/-- The engine after reset: every value is the spec's (spec/70_reset_and_hazards.md R230). -/
def Engine.reset : Engine where
  data := 0
  src := 0
  dst := 0
  pid := 0
  csum := 0
  acc := 0
  cnt := 0
  pend := 0
  zero := false
  ovf := false
  err := false
  ecode := 0
  fval := 0
  einfo := 0
  pkt := []

/-- The machine: the engine and the host's side of its port. -/
structure State where
  engine  : Engine
  /-- What the port takes next, in its single total order (spec/20_memory.md R64; log entries 1 and 12). -/
  pending : List PortEvent
  /-- The read values given back so far, newest first (log entry 3). -/
  replies : List Reply
  deriving DecidableEq, Repr

/-- The machine right after reset: the engine as R230 says, and no access waiting (log entry 4). -/
def State.reset : State where
  engine := Engine.reset
  pending := []
  replies := []

/-- Why the machine stops. It never does: every access completes in one step (spec/20_memory.md R69,
spec/70_reset_and_hazards.md R250) and no engine error terminates anything (spec/60_exceptions.md R220), so there is no
constructor. Safe: nothing is stopped that the spec lets go on. -/
inductive Fault where
  deriving DecidableEq

/-- Why the model gives something no meaning. -/
inductive Refusal where
  /-- An instruction without a meaning yet, by its mnemonic. Raised by `exec` alone, and at present by no arm of it. Safe. -/
  | notModelled (mnemonic : String)
  /-- An access at a platform address outside `CKE_BASE + 0x00` to `CKE_BASE + 0x5F`, which is not the engine's behaviour
  (spec/20_memory.md R51, spec/93_implementation_defined.md item 18). Raised by `platformStep` alone, never by `step`. Safe. -/
  | outsideEngine (addr : Nat)
  deriving DecidableEq, Repr

/-- The three outcomes of a step of this machine. -/
abbrev Result := Host.Outcome State Fault Refusal

end Sys2Proof.Machine
end

