-- ==== Sys2Proof/Machine/Ops.lean ====
section
/-! DEFINITION. The shared operations: the packet buffer's bytes and big-endian accesses (spec/00_scope.md R9,
spec/20_memory.md R53, R54, R61), raising an error and clearing it (spec/60_exceptions.md R204, R210). -/

namespace Sys2Proof.Machine

/-! ## Values and widths -/

/-- The number of bytes of an access. -/
def Width.bytes : Width → Nat
  | .byte => 1
  | .half => 2
  | .word => 4

/-- The width of a value. -/
def Value.width : Value → Width
  | .byte _ => .byte
  | .half _ => .half
  | .word _ => .word

/-- The zero of a width: what a bad read returns (spec/20_memory.md R58). -/
def Value.zeroOf : Width → Value
  | .byte => .byte 0
  | .half => .half 0
  | .word => .word 0

/-- The two bytes of a 16-bit value, most significant first (spec/20_memory.md R61). -/
def halfBytes (v : Half) : List Byte := [v.extractLsb' 8 8, v.extractLsb' 0 8]

/-- The four bytes of a 32-bit value, most significant first (spec/20_memory.md R61). -/
def wordBytes (v : Word) : List Byte :=
  [v.extractLsb' 24 8, v.extractLsb' 16 8, v.extractLsb' 8 8, v.extractLsb' 0 8]

/-- The bytes of a value in network byte order. -/
def Value.bytes : Value → List Byte
  | .byte v => [v]
  | .half v => halfBytes v
  | .word v => wordBytes v

/-! ## The packet buffer -/

/-- `PKT[k]` (spec/00_scope.md R9). -/
def Memory.read : Memory → Nat → Byte
  | [], _ => unlistedByte
  | (a, v) :: m, k => if a = k then v else Memory.read m k

/-- The contents with no cell for `k`. -/
def Memory.erase (m : Memory) (k : Nat) : Memory := m.filter fun c => decide (c.1 ≠ k)

/-- The cell `(k, v)` put before the first larger index. -/
def Memory.insert (k : Nat) (v : Byte) : Memory → Memory
  | [] => [(k, v)]
  | (a, u) :: m => if k < a then (k, v) :: (a, u) :: m else (a, u) :: Memory.insert k v m

/-- `PKT[k] <- v`, keeping the canonical form: writing what an unlisted byte reads as removes the cell. -/
def Memory.write (m : Memory) (k : Nat) (v : Byte) : Memory :=
  if v = unlistedByte then m.erase k else Memory.insert k v (m.erase k)

/-- The bytes `bs` written at `k`, `k + 1`, ... -/
def Memory.writeBytes : Memory → Nat → List Byte → Memory
  | m, _, [] => m
  | m, k, b :: bs => Memory.writeBytes (m.write k b) (k + 1) bs

/-- `MemWrite(k, n, v)`: the most significant byte at `PKT[k]` (spec/00_scope.md R9). -/
def memWrite (m : Memory) (k : Nat) (v : Value) : Memory := m.writeBytes k v.bytes

/-- `MemRead(k, 2)` (spec/00_scope.md R9). -/
def memRead16 (m : Memory) (k : Nat) : Half := m.read k ++ m.read (k + 1)

/-- `MemRead(k, 4)` (spec/00_scope.md R9). -/
def memRead32 (m : Memory) (k : Nat) : Word := m.read k ++ (m.read (k + 1) ++ (m.read (k + 2) ++ m.read (k + 3)))

/-- `MemRead(k, n)`: the big-endian value of `n` bytes (spec/00_scope.md R9). -/
def memRead (m : Memory) (k : Nat) : Width → Value
  | .byte => .byte (m.read k)
  | .half => .half (memRead16 m k)
  | .word => .word (memRead32 m k)

/-- `PKT[off .. off + len - 1]`, a sequence of `len` bytes. -/
def Memory.region (m : Memory) (off len : Nat) : List Byte := (List.range len).map fun j => m.read (off + j)

/-! ## Errors -/

/-- The causes of an error (spec/60_exceptions.md R201). -/
inductive ErrorCode where
  | illegalOp | reservedField | range | badField | value | badAccess
  deriving DecidableEq, Repr

/-- The number written to `ECODE` (spec/60_exceptions.md R201). -/
def ErrorCode.bits : ErrorCode → BitVec 4
  | .illegalOp => 1
  | .reservedField => 2
  | .range => 3
  | .badField => 4
  | .value => 5
  | .badAccess => 6

/-- `raise Error(code, info)`, the one entry of every error (spec/60_exceptions.md R204): the first error since `ERR` was
cleared is recorded, `ERR` is set, and nothing else changes. It saves nothing and moves nothing (R208). -/
def raiseError (code : ErrorCode) (info : Word) (e : Engine) : Engine :=
  { (if e.err = false then { e with ecode := code.bits, einfo := info } else e) with err := true }

/-- The return from an error (spec/60_exceptions.md R210): the effect of `STATUS` bit 3 written 1. -/
def clearError (e : Engine) : Engine := { e with err := false, ecode := 0, einfo := 0 }

/-- The error a rejected word raises (spec/30_encoding.md R84). -/
def causeOf : DecodeError → ErrorCode
  | .illegalOp => .illegalOp
  | .reservedField => .reservedField

/-- `sz` of a bad access's record (spec/60_exceptions.md R205). -/
def Width.szBits : Width → BitVec 2
  | .byte => 0
  | .half => 1
  | .word => 2

/-- The record of a bad access: `{21'b0, wr, sz, off}` (spec/60_exceptions.md R205). -/
def badAccessInfo (wr : Bool) (n : Width) (off : Offset) : Word :=
  0#21 ++ (BitVec.ofBool wr ++ (n.szBits ++ BitVec.ofNat 8 off.val))

/-- A bad access raises `BAD_ACCESS` and does nothing else (spec/20_memory.md R58). -/
def badAccess (wr : Bool) (n : Width) (off : Offset) (e : Engine) : Engine :=
  raiseError .badAccess (badAccessInfo wr n off) e

/-! ## Steps of the engine -/

/-- The next state in which only the engine has changed. -/
def State.withEngine (s : State) (e : Engine) : State := { s with engine := e }

end Sys2Proof.Machine
end

