-- ==== Sys2Proof/Machine/Flags.lean ====
section
/-! DEFINITION. The `STATUS` register: its views and flag computations (spec/10_state.md R27 to R33), and the writes to it. -/

namespace Sys2Proof.Machine

/-- `STATUS.ODD`, the view `CNT[0]` (spec/10_state.md R29). -/
def Engine.odd (e : Engine) : Bool := e.cnt.getLsbD 0

/-- Whether an exact sum carries out of bit 31 of the accumulator (spec/40_checksum_engine.md R104). -/
def carriesOut (s : Nat) : Bool := decide (2 ^ 32 ≤ s)

/-- `x[CSUM] <- zext_32(r)` and `ZERO <- (r == 0x0000)`, in one step (spec/10_state.md R27, R34). -/
def setResult (r : Half) (e : Engine) : Engine := { e with csum := r.zeroExtend 32, zero := decide (r = 0) }

/-- What a read of `STATUS` returns (spec/20_memory.md R59). -/
def Engine.statusWord (e : Engine) : Word :=
  0#16 ++ (e.pend ++ (e.ecode ++ (BitVec.ofBool e.err ++ (BitVec.ofBool e.odd ++
    (BitVec.ofBool e.ovf ++ BitVec.ofBool e.zero)))))

/-- The effect of `STATUS` bit 1 written 1 (spec/10_state.md R28). -/
def clearOverflow (e : Engine) : Engine := { e with ovf := false }

/-- A host write to `STATUS`: bits 1 and 3 clear their fields when 1, every other bit is ignored
(spec/20_memory.md R56, R60). -/
def writeStatus (v : Word) (e : Engine) : Engine :=
  let e' := if v.getLsbD 1 = true then clearOverflow e else e
  if v.getLsbD 3 = true then clearError e' else e'

end Sys2Proof.Machine
end

