-- ==== Sys2Proof/Machine/Operands.lean ====
section
/-! DEFINITION. What an access or a command operates on: the register map (spec/20_memory.md R50), the window's legal accesses
(R53), the field table and the field encoder's accessors (spec/30_encoding.md R90, spec/42_header_builder.md R143). -/

namespace Sys2Proof.Machine

/-! ## Registers -/

/-- The registers of the map, by their names (spec/20_memory.md R50). -/
inductive Reg where
  | cmd | data | status | csum | acc | cnt | src | dst | pid | wirelen | fval | einfo
  deriving DecidableEq, Repr

/-- The offset of a register (spec/20_memory.md R50). -/
def regOffset : Reg → Offset
  | .cmd => 0x00
  | .data => 0x04
  | .status => 0x08
  | .csum => 0x0C
  | .acc => 0x10
  | .cnt => 0x14
  | .src => 0x18
  | .dst => 0x1C
  | .pid => 0x20
  | .wirelen => 0x24
  | .fval => 0x28
  | .einfo => 0x2C

/-- The register at an offset, if one begins there (spec/20_memory.md R50). -/
def regOfOffset (off : Nat) : Option Reg :=
  match off with
  | 0x00 => some .cmd
  | 0x04 => some .data
  | 0x08 => some .status
  | 0x0C => some .csum
  | 0x10 => some .acc
  | 0x14 => some .cnt
  | 0x18 => some .src
  | 0x1C => some .dst
  | 0x20 => some .pid
  | 0x24 => some .wirelen
  | 0x28 => some .fval
  | 0x2C => some .einfo
  | _ => none

/-- The register an access reaches: only a 32-bit access at the register's own offset (spec/20_memory.md R52). -/
def regAt (n : Width) (off : Offset) : Option Reg :=
  match n with
  | .word => regOfOffset off.val
  | .byte => none
  | .half => none

/-- `WIRELEN`: the total-length field decoded from network byte order (spec/10_state.md R38). -/
def Engine.wirelen (e : Engine) : Word := (memRead16 e.pkt 2).zeroExtend 32

/-- What a read of a register returns (spec/20_memory.md R59). -/
def Engine.readReg (e : Engine) : Reg → Word
  | .cmd => 0
  | .data => e.data
  | .status => e.statusWord
  | .csum => e.csum
  | .acc => e.acc
  | .cnt => e.cnt
  | .src => e.src
  | .dst => e.dst
  | .pid => e.pid
  | .wirelen => e.wirelen
  | .fval => e.fval
  | .einfo => e.einfo

/-- The window index `k` of a legal access at offset `0x40 + k`: `k mod n == 0` and `k + n <= 28` (spec/20_memory.md R53). -/
def windowIndex (n : Width) (off : Offset) : Option Nat :=
  if Config.windowOff ≤ off.val ∧ (off.val - Config.windowOff) % n.bytes = 0 ∧
      (off.val - Config.windowOff) + n.bytes ≤ Config.pktLen then
    some (off.val - Config.windowOff)
  else none

/-! ## Fields -/

/-- The field with a field id; ids from 16 up are reserved (spec/30_encoding.md R90, R91). -/
def fieldOfId (fid : Nat) : Option Field :=
  match fid with
  | 0 => some .ipVer
  | 1 => some .ipIhl
  | 2 => some .ipTos
  | 3 => some .ipLen
  | 4 => some .ipId
  | 5 => some .ipFrag
  | 6 => some .ipTtl
  | 7 => some .ipProto
  | 8 => some .ipSum
  | 9 => some .ipSrc
  | 10 => some .ipDst
  | 11 => some .icmpType
  | 12 => some .icmpCode
  | 13 => some .icmpSum
  | 14 => some .icmpId
  | 15 => some .icmpSeq
  | _ => none

/-- The `FID` column (spec/30_encoding.md R90). -/
def fieldId : Field → Nat
  | .ipVer => 0
  | .ipIhl => 1
  | .ipTos => 2
  | .ipLen => 3
  | .ipId => 4
  | .ipFrag => 5
  | .ipTtl => 6
  | .ipProto => 7
  | .ipSum => 8
  | .ipSrc => 9
  | .ipDst => 10
  | .icmpType => 11
  | .icmpCode => 12
  | .icmpSum => 13
  | .icmpId => 14
  | .icmpSeq => 15

/-- The `at` column: the byte offset in `PKT` (spec/30_encoding.md R90; log entry 10). -/
def fieldAt : Field → Nat
  | .ipVer => 0
  | .ipIhl => 0
  | .ipTos => 1
  | .ipLen => 2
  | .ipId => 4
  | .ipFrag => 6
  | .ipTtl => 8
  | .ipProto => 9
  | .ipSum => 10
  | .ipSrc => 12
  | .ipDst => 16
  | .icmpType => 20
  | .icmpCode => 21
  | .icmpSum => 22
  | .icmpId => 24
  | .icmpSeq => 26

/-- The `n` column: the bytes the field stands in (spec/30_encoding.md R90). -/
def fieldBytes : Field → Width
  | .ipVer | .ipIhl | .ipTos | .ipTtl | .ipProto | .icmpType | .icmpCode => .byte
  | .ipLen | .ipId | .ipFrag | .ipSum | .icmpSum | .icmpId | .icmpSeq => .half
  | .ipSrc | .ipDst => .word

/-- The `W` column: the width in bits (spec/30_encoding.md R90). -/
def fieldWidth : Field → Nat
  | .ipVer | .ipIhl => 4
  | .ipTos | .ipTtl | .ipProto | .icmpType | .icmpCode => 8
  | .ipLen | .ipId | .ipFrag | .ipSum | .icmpSum | .icmpId | .icmpSeq => 16
  | .ipSrc | .ipDst => 32

/-- A 32-bit register's low bytes as a value of a width. -/
def valueOfWord (n : Width) (v : Word) : Value :=
  match n with
  | .byte => .byte (v.truncate 8)
  | .half => .half (v.truncate 16)
  | .word => .word v

/-- A value zero-extended to 32 bits. -/
def Value.toWord : Value → Word
  | .byte v => v.zeroExtend 32
  | .half v => v.zeroExtend 32
  | .word v => v

/-- `zext_32(FieldRead(f))` (spec/42_header_builder.md R143): the two 4-bit fields are the nibbles of `PKT[0]`. -/
def fieldRead (m : Memory) (f : Field) : Word :=
  match f with
  | .ipVer => ((m.read 0).extractLsb' 4 4).zeroExtend 32
  | .ipIhl => ((m.read 0).extractLsb' 0 4).zeroExtend 32
  | .ipTos | .ipLen | .ipId | .ipFrag | .ipTtl | .ipProto | .ipSum | .ipSrc | .ipDst
  | .icmpType | .icmpCode | .icmpSum | .icmpId | .icmpSeq => (memRead m (fieldAt f) (fieldBytes f)).toWord

/-- `FieldWrite(f, v[W(f)-1:0])` (spec/42_header_builder.md R143): writing one nibble of `PKT[0]` leaves the other. -/
def fieldWrite (m : Memory) (f : Field) (v : Word) : Memory :=
  match f with
  | .ipVer => m.write 0 (v.extractLsb' 0 4 ++ (m.read 0).extractLsb' 0 4)
  | .ipIhl => m.write 0 ((m.read 0).extractLsb' 4 4 ++ v.extractLsb' 0 4)
  | .ipTos | .ipLen | .ipId | .ipFrag | .ipTtl | .ipProto | .ipSum | .ipSrc | .ipDst
  | .icmpType | .icmpCode | .icmpSum | .icmpId | .icmpSeq => memWrite m (fieldAt f) (valueOfWord (fieldBytes f) v)

/-- Whether a value has no bit set at or above the field's width (spec/42_header_builder.md R150). -/
def fitsField (f : Field) (v : Word) : Bool := decide (v.toNat < 2 ^ fieldWidth f)

end Sys2Proof.Machine
end

