-- ==== Sys2Proof/Machine/ChecksumEngine.lean ====
section
/-! DEFINITION. The checksum function and the commands of the checksum engine: CLR, FEED8, FEED16, FEED32, FINAL, CSUMBUF
(spec/40_checksum_engine.md). -/

namespace Sys2Proof.Machine

/-! ## The checksum function -/

/-- `Fold16(v)`, its two exact sums (spec/40_checksum_engine.md R101). -/
def fold16 (v : Word) : Half :=
  let t1 := (v.extractLsb' 16 16).toNat + (v.extractLsb' 0 16).toNat
  let t2 := t1 / 2 ^ 16 + t1 % 2 ^ 16
  BitVec.ofNat 16 t2

/-- The accumulation loop of `Checksum`: network-order words, modulo 2^32, a trailing byte as the more significant byte of a
word whose other byte is 0 (spec/40_checksum_engine.md R100; spec/90_conflicts.md C1, C2). -/
def sumWords : Word → List Byte → Word
  | acc, [] => acc
  | acc, [b] => acc + (b ++ (0 : Byte)).zeroExtend 32
  | acc, b :: c :: bs => sumWords (acc + (b ++ c).zeroExtend 32) bs

/-- `Checksum(b)` (spec/40_checksum_engine.md R100). -/
def checksum (bs : List Byte) : Half := ~~~(fold16 (sumWords 0 bs))

/-! ## Streaming -/

/-- CLR's effect (spec/40_checksum_engine.md R103). -/
def clearStream (e : Engine) : Engine := { e with acc := 0, cnt := 0, pend := 0, ovf := false }

/-- `FeedByte(b)` (spec/40_checksum_engine.md R104): the first byte of a pair waits in `PEND`, the second completes the word
`{PEND, b}`; a carry out of bit 31 is lost and sets `OVF`. -/
def feedByte (b : Byte) (e : Engine) : Engine :=
  let e' :=
    if e.odd = true then
      let s := e.acc.toNat + (e.pend ++ b).toNat
      { e with acc := BitVec.ofNat 32 s, pend := 0, ovf := e.ovf || carriesOut s }
    else { e with pend := b }
  { e' with cnt := e'.cnt + 1 }

/-- Bytes fed one after another, in one step (spec/40_checksum_engine.md R106, R107). -/
def feedBytes (bs : List Byte) (e : Engine) : Engine := bs.foldl (fun e b => feedByte b e) e

/-- FINAL's effect (spec/40_checksum_engine.md R110): the pad of a waiting byte is added, the streaming state but `OVF` is
left. -/
def finish (e : Engine) : Engine :=
  let pad : Half := if e.odd = true then e.pend ++ (0 : Byte) else 0
  let s := e.acc.toNat + pad.toNat
  setResult (~~~(fold16 (BitVec.ofNat 32 s))) { e with ovf := e.ovf || carriesOut s }

/-! ## The commands -/

/-- CLR (spec/40_checksum_engine.md R103). -/
def execClr (s : State) : Result := .next (s.withEngine (clearStream s.engine))

/-- FEED8 feeds `DATA[7:0]` (spec/40_checksum_engine.md R105). -/
def execFeed8 (s : State) : Result :=
  .next (s.withEngine (feedBytes [s.engine.data.extractLsb' 0 8] s.engine))

/-- FEED16 feeds `DATA[15:8]`, then `DATA[7:0]` (spec/40_checksum_engine.md R106). -/
def execFeed16 (s : State) : Result :=
  .next (s.withEngine (feedBytes [s.engine.data.extractLsb' 8 8, s.engine.data.extractLsb' 0 8] s.engine))

/-- FEED32 feeds the four bytes of `DATA`, the most significant first (spec/40_checksum_engine.md R107). -/
def execFeed32 (s : State) : Result := .next (s.withEngine (feedBytes (wordBytes s.engine.data) s.engine))

/-- FINAL (spec/40_checksum_engine.md R110). -/
def execFinal (s : State) : Result := .next (s.withEngine (finish s.engine))

/-- CSUMBUF (spec/40_checksum_engine.md R113): `RANGE` when the region does not lie in the buffer, else the checksum of its
bytes; the record of the error is the command word (log entry 7). -/
def execCsumbuf (off len : Nat) (s : State) : Result :=
  .next (s.withEngine
    (if Config.pktLen < off + len then raiseError .range (encode (.csumbuf off len)) s.engine
     else setResult (checksum (s.engine.pkt.region off len)) s.engine))

end Sys2Proof.Machine
end

