-- ==== Sys2Proof/Machine/ChecksumInstall.lean ====
section
/-! DEFINITION. Installing the header checksums, INSICMP and INSIP, and the packet the wire length names
(spec/43_checksum_install.md). -/

namespace Sys2Proof.Machine

/-- The field at `at_` zeroed, the checksum of the header at `off` of `len` bytes computed, and installed in the field; `CSUM`
and `ZERO` take the result (spec/43_checksum_install.md R170, R172). -/
def installChecksum (at_ off len : Nat) (e : Engine) : Engine :=
  let zeroed := memWrite e.pkt at_ (.half 0x0000)
  let r := checksum (zeroed.region off len)
  setResult r { e with pkt := memWrite zeroed at_ (.half r) }

/-- INSICMP: the ICMP header, its checksum field at 22 (spec/43_checksum_install.md R170). -/
def execInsicmp (s : State) : Result :=
  .next (s.withEngine (installChecksum (fieldAt .icmpSum) Config.icmpOff Config.icmpHlen s.engine))

/-- INSIP: the IPv4 header, its checksum field at 10 (spec/43_checksum_install.md R172). -/
def execInsip (s : State) : Result :=
  .next (s.withEngine (installChecksum (fieldAt .ipSum) 0 Config.ipHlen s.engine))

/-- The packet to send, `PKT[0..WIRELEN-1]`; none when the wire length exceeds what the engine holds
(spec/43_checksum_install.md R175, spec/93_implementation_defined.md item 13). -/
def wirePacket (e : Engine) : Option (List Byte) :=
  if e.wirelen.toNat ≤ Config.pktLen then some (e.pkt.region 0 e.wirelen.toNat) else none

end Sys2Proof.Machine
end

