-- ==== Sys2Proof/Machine/Control.lean ====
section
/-! DEFINITION. The control command NOP (spec/44_control.md). -/

namespace Sys2Proof.Machine

/-- NOP: no state is read or written (spec/44_control.md R190). -/
def execNop (s : State) : Result := .next s

end Sys2Proof.Machine
end

