-- ==== Sys2Proof/Machine/HeaderBuilder.lean ====
section
/-! DEFINITION. The header builder and the field encoder: BUILD, FSET, FGET (spec/42_header_builder.md). -/

namespace Sys2Proof.Machine

/-! The builder's constants (spec/42_header_builder.md R141; unaudited literals of the source, log entry 11). -/

/-- version 4 and header length 5 words, in one byte (R141; spec/30_encoding.md R87). -/
def buildVerIhl : Byte := 0x4#4 ++ 0x5#4

/-- type of service 0. -/
def buildTos : Byte := 0x00

/-- total length: the two headers, 28. -/
def buildLen : Half := BitVec.ofNat 16 Config.pktLen

/-- time to live 255. -/
def buildTtl : Byte := 0xFF

/-- protocol ICMP. -/
def buildProto : Byte := 0x01

/-- ICMP type Echo Request. -/
def buildType : Byte := 0x08

/-- ICMP code 0. -/
def buildCode : Byte := 0x00

/-- BUILD's fourteen writes, in the rule's order; bytes 6 and 7 are not written (spec/42_header_builder.md R141). -/
def buildHeaders (src dst pid : Word) (m : Memory) : Memory :=
  let m := memWrite m 0 (.byte buildVerIhl)
  let m := memWrite m 1 (.byte buildTos)
  let m := memWrite m 2 (.half buildLen)
  let m := memWrite m 4 (.half (pid.extractLsb' 0 16))
  let m := memWrite m 8 (.byte buildTtl)
  let m := memWrite m 9 (.byte buildProto)
  let m := memWrite m 10 (.half 0x0000)
  let m := memWrite m 12 (.word src)
  let m := memWrite m 16 (.word dst)
  let m := memWrite m 20 (.byte buildType)
  let m := memWrite m 21 (.byte buildCode)
  let m := memWrite m 22 (.half 0x0000)
  let m := memWrite m 24 (.half 0x0000)
  memWrite m 26 (.half 0x0000)

/-- BUILD (spec/42_header_builder.md R141): its inputs are sampled in this step (R140). -/
def execBuild (s : State) : Result :=
  .next (s.withEngine
    { s.engine with pkt := buildHeaders s.engine.src s.engine.dst s.engine.pid s.engine.pkt })

/-- FSET (spec/42_header_builder.md R150): `BAD_FIELD`, then `VALUE`, then the write; the record of an error is the command
word (log entry 7). -/
def execFset (fid : Nat) (s : State) : Result :=
  .next (s.withEngine
    (match fieldOfId fid with
      | none => raiseError .badField (encode (.fset fid)) s.engine
      | some f =>
        if fitsField f s.engine.data = false then raiseError .value (encode (.fset fid)) s.engine
        else { s.engine with pkt := fieldWrite s.engine.pkt f s.engine.data }))

/-- FGET (spec/42_header_builder.md R160). -/
def execFget (fid : Nat) (s : State) : Result :=
  .next (s.withEngine
    (match fieldOfId fid with
      | none => raiseError .badField (encode (.fget fid)) s.engine
      | some f => { s.engine with fval := fieldRead s.engine.pkt f }))

end Sys2Proof.Machine
end

