-- ==== Sys2Proof/Machine/PacketAssembler.lean ====
section
/-! DEFINITION. The packet assembler's command PKTZ (spec/41_packet_assembler.md). -/

namespace Sys2Proof.Machine

/-- `PKT[k] <- 0x00` for every `k` of the buffer (spec/41_packet_assembler.md R130). -/
def zeroBuffer (m : Memory) : Memory := m.writeBytes 0 (List.replicate Config.pktLen 0x00)

/-- PKTZ (spec/41_packet_assembler.md R130). -/
def execPktz (s : State) : Result := .next (s.withEngine { s.engine with pkt := zeroBuffer s.engine.pkt })

end Sys2Proof.Machine
end

