-- ==== Sys2Proof/Machine/Dispatch.lean ====
section
/-! DEFINITION. One arm for each command: the opcode map of spec/30_encoding.md R82. -/

namespace Sys2Proof.Machine

def exec (i : Instr) (s : State) : Host.Outcome State Fault Refusal :=
  match i with
  | .nop => Sys2Proof.Machine.execNop s
  | .clr => Sys2Proof.Machine.execClr s
  | .feed8 => Sys2Proof.Machine.execFeed8 s
  | .feed16 => Sys2Proof.Machine.execFeed16 s
  | .feed32 => Sys2Proof.Machine.execFeed32 s
  | .final => Sys2Proof.Machine.execFinal s
  | .pktz => Sys2Proof.Machine.execPktz s
  | .build => Sys2Proof.Machine.execBuild s
  | .insicmp => Sys2Proof.Machine.execInsicmp s
  | .insip => Sys2Proof.Machine.execInsip s
  | .csumbuf off len => Sys2Proof.Machine.execCsumbuf off len s
  | .fset fid => Sys2Proof.Machine.execFset fid s
  | .fget fid => Sys2Proof.Machine.execFget fid s

end Sys2Proof.Machine
end

