-- ==== Sys2Proof/Machine/Port.lean ====
section
/-! DEFINITION. The one host port: executing a command word (spec/30_encoding.md R84), the host's read and write steps
(spec/20_memory.md R59, R60), the platform's reset (spec/70_reset_and_hazards.md R230), and an access at a platform address
(spec/20_memory.md R51). -/

namespace Sys2Proof.Machine

/-- `Execute(w)` (spec/30_encoding.md R84): the command `w` decodes to, or the error it raises with `w` as its record. -/
def execute (w : Word) (s : State) : Result :=
  match decode w with
  | .error c => .next (s.withEngine (raiseError (causeOf c) w s.engine))
  | .ok i => exec i s

/-- `HostRead(off, n)` (spec/20_memory.md R59): the value returned and the engine after; a bad read latches its error and
returns 0 (R58). -/
def hostRead (off : Offset) (n : Width) (e : Engine) : Value × Engine :=
  match regAt n off with
  | some r => (.word (e.readReg r), e)
  | none =>
    match windowIndex n off with
    | some k => (memRead e.pkt k n, e)
    | none => (Value.zeroOf n, badAccess false n off e)

/-- A 32-bit write to a register (spec/20_memory.md R60): `CMD` runs the command, `STATUS` clears what its bits 1 and 3 say,
the operand registers take the value, and a read-only register is a bad access (R56). -/
def writeReg (r : Reg) (v : Word) (s : State) : Result :=
  match r with
  | .cmd => execute v s
  | .data => .next (s.withEngine { s.engine with data := v })
  | .status => .next (s.withEngine (writeStatus v s.engine))
  | .src => .next (s.withEngine { s.engine with src := v })
  | .dst => .next (s.withEngine { s.engine with dst := v })
  | .pid => .next (s.withEngine { s.engine with pid := v })
  | .csum => .next (s.withEngine (badAccess true .word (regOffset .csum) s.engine))
  | .acc => .next (s.withEngine (badAccess true .word (regOffset .acc) s.engine))
  | .cnt => .next (s.withEngine (badAccess true .word (regOffset .cnt) s.engine))
  | .wirelen => .next (s.withEngine (badAccess true .word (regOffset .wirelen) s.engine))
  | .fval => .next (s.withEngine (badAccess true .word (regOffset .fval) s.engine))
  | .einfo => .next (s.withEngine (badAccess true .word (regOffset .einfo) s.engine))

/-- `HostWrite(off, n, v)` (spec/20_memory.md R60). -/
def hostWrite (off : Offset) (v : Value) (s : State) : Result :=
  match regAt v.width off with
  | some r => writeReg r v.toWord s
  | none =>
    match windowIndex v.width off with
    | some k => .next (s.withEngine { s.engine with pkt := memWrite s.engine.pkt k v })
    | none => .next (s.withEngine (badAccess true v.width off s.engine))

/-- One access by an agent, as one atomic step; a read's value goes back to the agent (spec/00_scope.md R6,
spec/20_memory.md R63). -/
def performAccess (agent : Nat) (a : Access) (s : State) : Result :=
  match a with
  | .read n off =>
    .next { s with engine := (hostRead off n s.engine).2,
                   replies := { agent := agent, value := (hostRead off n s.engine).1 } :: s.replies }
  | .write off v => hostWrite off v s

/-- One event of the port: an access, or the platform's reset of the engine, which leaves the host's side alone
(spec/70_reset_and_hazards.md R230; log entry 6). -/
def performEvent (ev : PortEvent) (s : State) : Result :=
  match ev with
  | .access agent a => performAccess agent a s
  | .reset => .next (s.withEngine Engine.reset)

/-- The port takes the first waiting event; with none waiting the engine is idle, since it never steps on its own
(spec/00_scope.md R6, spec/70_reset_and_hazards.md R231; log entry 2). -/
def portStep (s : State) : Result :=
  match s.pending with
  | [] => .next s
  | ev :: rest => performEvent ev { s with pending := rest }

/-! ## Platform addresses -/

/-- An access as an agent issues it, at a platform address. -/
inductive PlatformAccess where
  | read (n : Width) (addr : Nat)
  | write (addr : Nat) (v : Value)
  deriving DecidableEq, Repr

/-- The address an access names. -/
def PlatformAccess.addr : PlatformAccess → Nat
  | .read _ addr => addr
  | .write addr _ => addr

/-- The offset of an address from `CKE_BASE`, if the engine decodes it (spec/20_memory.md R51; log entry 5). -/
def offsetAt (base addr : Nat) : Option Offset :=
  if h : base ≤ addr ∧ addr - base < 0x60 then some ⟨addr - base, h.2⟩ else none

/-- The engine's access that a platform access is, with `CKE_BASE` as an argument (spec/20_memory.md R51). -/
def platformAccess (base : Nat) (p : PlatformAccess) : Option Access :=
  match p with
  | .read n addr => (offsetAt base addr).map fun off => .read n off
  | .write addr v => (offsetAt base addr).map fun off => .write off v

/-- One access at a platform address: outside the engine's offsets it is not the engine's behaviour, and is refused
(spec/93_implementation_defined.md item 18). -/
def platformStep (base agent : Nat) (p : PlatformAccess) (s : State) : Result :=
  match platformAccess base p with
  | some a => performAccess agent a s
  | none => .refused (.outsideEngine p.addr)

/-! ## Placing a command -/

/-- A 32-bit write of `w` to `CMD` by agent 0 (spec/30_encoding.md R80). -/
def commandWrite (w : Word) : PortEvent := .access 0 (.write (regOffset .cmd) (.word w))

end Sys2Proof.Machine
end

