-- ==== Sys2Proof/Machine/Step.lean ====
section
/-! DEFINITION. One step of the machine: the port takes its next event (spec/00_scope.md R6, R7). There is no program counter
and no fetch (spec/10_state.md R21, spec/20_memory.md R67). -/

namespace Sys2Proof.Machine

/-- One step. -/
def step (s : State) : Host.Outcome State Fault Refusal := portStep s

/-- `s` with the command word `w` as what the port takes next: a write of it to `CMD` before the events already waiting
(log entry 4). The bits from `nbits` up are 0. -/
def State.withFetchWord (s : State) (nbits w : Nat) : State :=
  { s with pending := commandWrite (BitVec.ofNat 32 (w % 2 ^ nbits)) :: s.pending }

end Sys2Proof.Machine
end

