-- ==== Sys2Proof/Machine/Assembler.lean ====
section
/-! DEFINITION. Programs as host access lists: the lines and pseudo-instructions of spec/30_encoding.md R92 and R93, what each
stands for, and the reading of their text. What the spec leaves open about the text (spaces, letter case, an operand that does
not fit) is log entry 14. -/

namespace Sys2Proof.Machine

/-! ## Lines and pseudo-instructions -/

/-- A line of a program (spec/30_encoding.md R92): one host access. -/
inductive Line where
  | wr (r : Reg) (v : Word)
  | rd (r : Reg)
  | wrb (k : Nat) (v : Byte)
  | wrh (k : Nat) (v : Half)
  | wrw (k : Nat) (v : Word)
  | rdb (k : Nat)
  | rdh (k : Nat)
  | rdw (k : Nat)
  | cmd (i : Instr)
  deriving DecidableEq, Repr

/-- A pseudo-instruction (spec/30_encoding.md R93). The field of SETF is a number, as that of FSET is. -/
inductive Pseudo where
  | prep (src dst pid : Word)
  | verifyip
  | verifyicmp
  | feedb (b : Word)
  | feedh (h : Word)
  | feedw (w : Word)
  | setf (fid : Nat) (v : Word)
  | clrerr
  | clrovf
  deriving DecidableEq, Repr

/-- The expansions of spec/30_encoding.md R93. -/
def expand : Pseudo → List Line
  | .prep src dst pid =>
    [.wr .src src, .wr .dst dst, .wr .pid pid, .cmd .pktz, .cmd .build, .cmd .insicmp, .cmd .insip]
  | .verifyip => [.cmd (.csumbuf 0 20)]
  | .verifyicmp => [.cmd (.csumbuf 20 8)]
  | .feedb b => [.wr .data b, .cmd .feed8]
  | .feedh h => [.wr .data h, .cmd .feed16]
  | .feedw w => [.wr .data w, .cmd .feed32]
  | .setf fid v => [.wr .data v, .cmd (.fset fid)]
  | .clrerr => [.wr .status 0x00000008]
  | .clrovf => [.wr .status 0x00000002]

/-- The register offset `0x40 + k` of a window line, if the register space has it (spec/30_encoding.md R92). -/
def windowOffset (k : Nat) : Option Offset := offsetAt 0 (Config.windowOff + k)

/-- The access a line stands for (spec/30_encoding.md R92). -/
def lineAccess : Line → Option Access
  | .wr r v => some (.write (regOffset r) (.word v))
  | .rd r => some (.read .word (regOffset r))
  | .wrb k v => (windowOffset k).map fun off => .write off (.byte v)
  | .wrh k v => (windowOffset k).map fun off => .write off (.half v)
  | .wrw k v => (windowOffset k).map fun off => .write off (.word v)
  | .rdb k => (windowOffset k).map fun off => .read .byte off
  | .rdh k => (windowOffset k).map fun off => .read .half off
  | .rdw k => (windowOffset k).map fun off => .read .word off
  | .cmd i => some (.write (regOffset .cmd) (.word (encode i)))

/-- The port events of lines issued by one agent; none when a line names no offset of the engine. -/
def lineEvents (agent : Nat) (ls : List Line) : Option (List PortEvent) :=
  (ls.mapM lineAccess).map fun as => as.map fun a => .access agent a

/-! ## Text -/

/-- The words a line can begin with (spec/30_encoding.md R92, R93). -/
inductive Keyword where
  | wr | rd | wrb | wrh | wrw | rdb | rdh | rdw
  | nop | clr | feed8 | feed16 | feed32 | final | pktz | build | insicmp | insip | csumbuf | fset | fget
  | prep | verifyip | verifyicmp | feedb | feedh | feedw | setf | clrerr | clrovf
  deriving DecidableEq, Repr

/-- The spelling of the access keywords (spec/30_encoding.md R92). -/
def accessKeywords : List (List Char × Keyword) :=
  [("WR".toList, Keyword.wr), ("RD".toList, Keyword.rd), ("WRB".toList, Keyword.wrb), ("WRH".toList, Keyword.wrh),
   ("WRW".toList, Keyword.wrw), ("RDB".toList, Keyword.rdb), ("RDH".toList, Keyword.rdh), ("RDW".toList, Keyword.rdw)]

/-- The spelling of the command mnemonics (spec/30_encoding.md R82, R92). -/
def commandKeywords : List (List Char × Keyword) :=
  [("NOP".toList, Keyword.nop), ("CLR".toList, Keyword.clr), ("FEED8".toList, Keyword.feed8),
   ("FEED16".toList, Keyword.feed16), ("FEED32".toList, Keyword.feed32), ("FINAL".toList, Keyword.final),
   ("PKTZ".toList, Keyword.pktz), ("BUILD".toList, Keyword.build), ("INSICMP".toList, Keyword.insicmp),
   ("INSIP".toList, Keyword.insip), ("CSUMBUF".toList, Keyword.csumbuf), ("FSET".toList, Keyword.fset),
   ("FGET".toList, Keyword.fget)]

/-- The spelling of the pseudo-instructions (spec/30_encoding.md R93). -/
def pseudoKeywords : List (List Char × Keyword) :=
  [("PREP".toList, Keyword.prep), ("VERIFYIP".toList, Keyword.verifyip), ("VERIFYICMP".toList, Keyword.verifyicmp),
   ("FEEDB".toList, Keyword.feedb), ("FEEDH".toList, Keyword.feedh), ("FEEDW".toList, Keyword.feedw),
   ("SETF".toList, Keyword.setf), ("CLRERR".toList, Keyword.clrerr), ("CLROVF".toList, Keyword.clrovf)]

/-- The spelling of every keyword. -/
def keywords : List (List Char × Keyword) := accessKeywords ++ (commandKeywords ++ pseudoKeywords)

/-- The spelling of each register (spec/30_encoding.md R92). -/
def regNames : List (List Char × Reg) :=
  [("CMD".toList, .cmd), ("DATA".toList, .data), ("STATUS".toList, .status), ("CSUM".toList, .csum), ("ACC".toList, .acc),
   ("CNT".toList, .cnt), ("SRC".toList, .src), ("DST".toList, .dst), ("PID".toList, .pid), ("WIRELEN".toList, .wirelen),
   ("FVAL".toList, .fval), ("EINFO".toList, .einfo)]

/-- The spelling of each field (spec/30_encoding.md R90). -/
def fieldNames : List (List Char × Field) :=
  [("IP_VER".toList, Field.ipVer), ("IP_IHL".toList, Field.ipIhl), ("IP_TOS".toList, Field.ipTos),
   ("IP_LEN".toList, Field.ipLen), ("IP_ID".toList, Field.ipId), ("IP_FRAG".toList, Field.ipFrag),
   ("IP_TTL".toList, Field.ipTtl), ("IP_PROTO".toList, Field.ipProto), ("IP_SUM".toList, Field.ipSum),
   ("IP_SRC".toList, Field.ipSrc), ("IP_DST".toList, Field.ipDst), ("ICMP_TYPE".toList, Field.icmpType),
   ("ICMP_CODE".toList, Field.icmpCode), ("ICMP_SUM".toList, Field.icmpSum), ("ICMP_ID".toList, Field.icmpId),
   ("ICMP_SEQ".toList, Field.icmpSeq)]

/-- The value of a digit, hexadecimal letters of either case. -/
def digitOf (c : Char) : Option Nat :=
  if '0'.toNat ≤ c.toNat ∧ c.toNat ≤ '9'.toNat then some (c.toNat - '0'.toNat)
  else if 'a'.toNat ≤ c.toNat ∧ c.toNat ≤ 'f'.toNat then some (c.toNat - 'a'.toNat + 10)
  else if 'A'.toNat ≤ c.toNat ∧ c.toNat ≤ 'F'.toNat then some (c.toNat - 'A'.toNat + 10)
  else none

/-- The number that digits of a base spell, after `acc`. -/
def digitsFrom (base acc : Nat) : List Char → Option Nat
  | [] => some acc
  | c :: cs =>
    match digitOf c with
    | none => none
    | some d => if d < base then digitsFrom base (acc * base + d) cs else none

/-- A number: decimal, or hexadecimal with `0x` (spec/30_encoding.md R92). -/
def parseNat : List Char → Option Nat
  | [] => none
  | '0' :: 'x' :: c :: cs => digitsFrom 16 0 (c :: cs)
  | c :: cs => digitsFrom 10 0 (c :: cs)

/-- A number that fits `n` bits. -/
def parseBits (n : Nat) (cs : List Char) : Option (BitVec n) :=
  match parseNat cs with
  | some v => if v < 2 ^ n then some (BitVec.ofNat n v) else none
  | none => none

/-- A `<field>`: a field's name or its number (spec/30_encoding.md R92). -/
def parseField (cs : List Char) : Option Nat :=
  match fieldNames.lookup cs with
  | some f => some (fieldId f)
  | none => parseNat cs

/-- The words and commas of a line up to its comment; `acc` is the word being read, last letter first. -/
def lexLine (acc : List Char) : List Char → List (List Char)
  | [] => if acc = [] then [] else [acc.reverse]
  | c :: cs =>
    if c = ';' then (if acc = [] then [] else [acc.reverse])
    else if c = ',' then (if acc = [] then [] else [acc.reverse]) ++ [','] :: lexLine [] cs
    else if c = ' ' ∨ c = '\t' ∨ c = '\r' then (if acc = [] then [] else [acc.reverse]) ++ lexLine [] cs
    else lexLine (c :: acc) cs

/-- Operands separated by single commas. -/
def operandsOf : List (List Char) → Option (List (List Char))
  | [] => some []
  | [o] => if o = [','] then none else some [o]
  | o :: sep :: rest =>
    if o = [','] ∨ sep ≠ [','] ∨ rest = [] then none else (operandsOf rest).map fun os => o :: os

/-- A command line, if the operands fit the command word (spec/30_encoding.md R80, R92). -/
def commandLine (i : Instr) : Option (List Line) := if i.wellFormed = true then some [.cmd i] else none

/-- The lines of a keyword without operands (spec/30_encoding.md R92, R93). -/
def linesOf0 : Keyword → Option (List Line)
  | .nop => some [.cmd .nop]
  | .clr => some [.cmd .clr]
  | .feed8 => some [.cmd .feed8]
  | .feed16 => some [.cmd .feed16]
  | .feed32 => some [.cmd .feed32]
  | .final => some [.cmd .final]
  | .pktz => some [.cmd .pktz]
  | .build => some [.cmd .build]
  | .insicmp => some [.cmd .insicmp]
  | .insip => some [.cmd .insip]
  | .verifyip => some (expand .verifyip)
  | .verifyicmp => some (expand .verifyicmp)
  | .clrerr => some (expand .clrerr)
  | .clrovf => some (expand .clrovf)
  | _ => none

/-- The lines of a keyword with one operand. -/
def linesOf1 (k : Keyword) (a : List Char) : Option (List Line) :=
  match k with
  | .rd => (regNames.lookup a).map fun r => [.rd r]
  | .rdb => (parseNat a).map fun o => [.rdb o]
  | .rdh => (parseNat a).map fun o => [.rdh o]
  | .rdw => (parseNat a).map fun o => [.rdw o]
  | .fset => (parseField a).bind fun f => commandLine (.fset f)
  | .fget => (parseField a).bind fun f => commandLine (.fget f)
  | .feedb => (parseBits 32 a).map fun v => expand (.feedb v)
  | .feedh => (parseBits 32 a).map fun v => expand (.feedh v)
  | .feedw => (parseBits 32 a).map fun v => expand (.feedw v)
  | _ => none

/-- The lines of a keyword with two operands. -/
def linesOf2 (k : Keyword) (a b : List Char) : Option (List Line) :=
  match k with
  | .wr => (regNames.lookup a).bind fun r => (parseBits 32 b).map fun v => [.wr r v]
  | .wrb => (parseNat a).bind fun o => (parseBits 8 b).map fun v => [.wrb o v]
  | .wrh => (parseNat a).bind fun o => (parseBits 16 b).map fun v => [.wrh o v]
  | .wrw => (parseNat a).bind fun o => (parseBits 32 b).map fun v => [.wrw o v]
  | .csumbuf => (parseNat a).bind fun o => (parseNat b).bind fun n => commandLine (.csumbuf o n)
  | .setf => (parseField a).bind fun f => (parseBits 32 b).bind fun v =>
    if fitsOperand f = true then some (expand (.setf f v)) else none
  | _ => none

/-- The lines of a keyword with three operands. -/
def linesOf3 (k : Keyword) (a b c : List Char) : Option (List Line) :=
  match k with
  | .prep => (parseBits 32 a).bind fun s => (parseBits 32 b).bind fun d => (parseBits 32 c).map fun p => expand (.prep s d p)
  | _ => none

/-- The lines a keyword stands for with its operands (spec/30_encoding.md R92, R93). -/
def linesOf (k : Keyword) (ops : List (List Char)) : Option (List Line) :=
  match ops with
  | [] => linesOf0 k
  | [a] => linesOf1 k a
  | [a, b] => linesOf2 k a b
  | [a, b, c] => linesOf3 k a b c
  | _ => none

/-- The lines that one line of text stands for; a line with nothing before its comment stands for none. -/
def parseLine (cs : List Char) : Option (List Line) :=
  match lexLine [] cs with
  | [] => some []
  | w :: rest => do
    let k ← keywords.lookup w
    let ops ← operandsOf rest
    linesOf k ops

/-- The lines of a text, one access or pseudo-instruction a line; `acc` is the line being read, last letter first. -/
def parseText (acc : List Char) : List Char → Option (List Line)
  | [] => parseLine acc.reverse
  | c :: cs =>
    if c = '\n' then do
      let l ← parseLine acc.reverse
      let ls ← parseText [] cs
      some (l ++ ls)
    else parseText (c :: acc) cs

/-- A program's text as the port events of one agent (spec/30_encoding.md R92, R93). -/
def assemble (agent : Nat) (text : List Char) : Option (List PortEvent) := do
  let ls ← parseText [] text
  lineEvents agent ls

end Sys2Proof.Machine
end

