-- ==== Sys2Proof/Safety.lean ====
section
/-! DEFINITION. What claims are stated in: the engine's invariant and runs of the machine. -/

namespace Sys2Proof.Machine

/-- What the spec says holds in every state a run reaches: the buffer is 28 bytes in its canonical form
(spec/41_packet_assembler.md R131), the high half of `CSUM` is 0 (spec/10_state.md R34), `ZERO` stands only beside a zero
result (R27), `PEND` is 0 while no byte waits (R32), `ECODE` is a code of the table (spec/60_exceptions.md R201,
spec/93_implementation_defined.md item 10), and `ECODE` and `EINFO` are 0 while `ERR` is (R30, R31, R40). -/
structure Engine.Inv (e : Engine) : Prop where
  pkt_wf : e.pkt.wf = true
  csum_high : e.csum.extractLsb' 16 16 = 0
  zero_csum : e.zero = true → e.csum = 0
  pend_idle : e.odd = false → e.pend = 0
  ecode_range : e.ecode.toNat ≤ 6
  ecode_err : e.err = false → e.ecode = 0 ∧ e.einfo = 0
  err_ecode : e.err = true → e.ecode ≠ 0

/-- The invariant of a state is that of its engine: the host's side is free. -/
def State.Inv (s : State) : Prop := s.engine.Inv

/-- The events `es` taken one after another, whatever waits at the port (spec/00_scope.md R7). -/
def runEvents : List PortEvent → State → Result
  | [], s => .next s
  | ev :: es, s =>
    match performEvent ev s with
    | .next t => runEvents es t
    | .fault r => .fault r
    | .refused r => .refused r

/-- The exact sum of the 16-bit words `Checksum` adds, before any reduction modulo 2^32 (spec/40_checksum_engine.md R100). -/
def wordSum : List Byte → Nat
  | [] => 0
  | [b] => 256 * b.toNat
  | b :: c :: bs => 256 * b.toNat + c.toNat + wordSum bs

/-- A step of a streamed sequence: `DATA` written, then FEED8, FEED16 or FEED32 (spec/30_encoding.md R93, the
pseudo-instructions FEEDB, FEEDH, FEEDW). -/
inductive Feed where
  | byte (d : Word)
  | half (d : Word)
  | word (d : Word)
  deriving DecidableEq, Repr

/-- The bytes a feed appends to the sequence, in feed order (spec/40_checksum_engine.md R105, R106, R107). -/
def fedBy : Feed → List Byte
  | .byte d => [d.extractLsb' 0 8]
  | .half d => [d.extractLsb' 8 8, d.extractLsb' 0 8]
  | .word d => [d.extractLsb' 24 8, d.extractLsb' 16 8, d.extractLsb' 8 8, d.extractLsb' 0 8]

/-- `s` with `ev` as what the port takes next, before the events already waiting. -/
def State.waiting (s : State) (ev : PortEvent) : State := { s with pending := ev :: s.pending }

/-- `s` with the value a read gave back to an agent. -/
def State.replied (s : State) (agent : Nat) (v : Value) : State :=
  { s with replies := { agent := agent, value := v } :: s.replies }

/-- A 32-bit read of a register by an agent. -/
def regRead (agent : Nat) (r : Reg) : PortEvent := .access agent (.read .word (regOffset r))

/-- A 32-bit write of `v` to a register by an agent. -/
def regWrite (agent : Nat) (r : Reg) (v : Word) : PortEvent := .access agent (.write (regOffset r) (.word v))

/-- The accesses of a feed. -/
def feedEvents (agent : Nat) : Feed → List PortEvent
  | .byte d => [regWrite agent .data d, regWrite agent .cmd 0x00000002]
  | .half d => [regWrite agent .data d, regWrite agent .cmd 0x00000003]
  | .word d => [regWrite agent .data d, regWrite agent .cmd 0x00000004]

/-- A command without operands has the word `w0` alone: any other word with its opcode raises `RESERVED_FIELD` with the word as
its record and has no other effect (spec/30_encoding.md R83). -/
def RejectsOtherBits (w0 : Word) : Prop :=
  ∀ (w : Word) (s : State), w.extractLsb' 0 8 = w0.extractLsb' 0 8 → w ≠ w0 →
    execute w s = .next (s.withEngine (raiseError .reservedField w s.engine))

end Sys2Proof.Machine
end

