-- ==== Sys2Proof/Certificates/Slice0/Obligations.lean ====
section
/-! DEFINITION. The statements about this machine, from the numbered rules of spec/. `s.waiting ev` is any state in which the port
takes `ev` next; `s.withEngine e` is `s` with another engine and the same host side. No state that a run reaches or does not reach
is left out unless a premise says so. -/

open Sys2Proof Sys2Proof.Machine

/-! ## Encoding -/

/-- Decoding an encoded well-formed command gives it back (R80, R81, R82). -/
def Obligations.EncodedCommandsDecodeToThemselves : Prop :=
  ∀ i : Instr, i.wellFormed = true → decode (encode i) = .ok i

/-- A word that decodes to a command is the one word of that command, and the command is well formed (R80, R84). -/
def Obligations.DecodedWordsAreTheEncoding : Prop :=
  ∀ (w : Word) (i : Instr), decode w = .ok i → i.wellFormed = true ∧ encode i = w

/-- Words written out from spec/opcode_table.json and spec/95_test_vectors.md decode to the commands they stand for (R82). -/
def Obligations.TableWordsDecode : Prop :=
  decode 0x00000000 = .ok .nop ∧ decode 0x00000001 = .ok .clr ∧ decode 0x00000002 = .ok .feed8 ∧
  decode 0x00000003 = .ok .feed16 ∧ decode 0x00000004 = .ok .feed32 ∧ decode 0x00000005 = .ok .final ∧
  decode 0x00000010 = .ok .pktz ∧ decode 0x00000011 = .ok .build ∧ decode 0x00000012 = .ok .insicmp ∧
  decode 0x00000013 = .ok .insip ∧ decode 0x00030114 = .ok (.csumbuf 1 3) ∧ decode 0x00000F20 = .ok (.fset 15) ∧
  decode 0x00000621 = .ok (.fget 6)

/-- `Decode(w)` and `Execute(w)` of R84: the opcode check, then the reserved-field check, then the command with its operands; an
error, of these checks or of the command's own, is raised with the word and has no other effect. -/
def Obligations.ExecuteChecksOpcodeThenReservedFields : Prop :=
  ∀ (w : Word) (s : State),
    let op := (w.extractLsb' 0 8).toNat
    let a := (w.extractLsb' 8 8).toNat
    let b := (w.extractLsb' 16 8).toNat
    let rsv := (w.extractLsb' 24 8).toNat
    let known : Prop := op ∈ [0x00, 0x01, 0x02, 0x03, 0x04, 0x05, 0x10, 0x11, 0x12, 0x13, 0x14, 0x20, 0x21]
    let reserved : Prop := rsv ≠ 0 ∨ (op ∉ [0x14, 0x20, 0x21] ∧ a ≠ 0) ∨ (op ≠ 0x14 ∧ b ≠ 0)
    (¬known → execute w s = .next (s.withEngine (raiseError .illegalOp w s.engine))) ∧
    (known → reserved → execute w s = .next (s.withEngine (raiseError .reservedField w s.engine))) ∧
    (known → ¬reserved → ∃ i, decode w = .ok i ∧ (opOf i).toNat = op ∧ operandA i = a ∧ operandB i = b ∧
      execute w s = exec i s ∧
      ∀ t, exec i s = .next t → s.engine.err = false → t.engine.err = true → t.engine.einfo = w ∧
        { t.engine with err := false, ecode := s.engine.ecode, einfo := s.engine.einfo } = s.engine)

/-! ## A step -/

/-- A 32-bit write of `w` to `CMD` runs the command `w` in that one step, or raises the decoder's error; `CMD` holds nothing, and
a read of it returns 0 and raises no error (R26). -/
def Obligations.CommandWriteRunsTheDecodedCommand : Prop :=
  ∀ (s : State) (agent : Nat) (w : Word),
    (∀ i, decode w = .ok i → step (s.waiting (.access agent (.write 0x00 (.word w)))) = exec i s) ∧
    (decode w = .error .illegalOp → step (s.waiting (.access agent (.write 0x00 (.word w)))) =
      .next (s.withEngine (raiseError .illegalOp w s.engine))) ∧
    (decode w = .error .reservedField → step (s.waiting (.access agent (.write 0x00 (.word w)))) =
      .next (s.withEngine (raiseError .reservedField w s.engine))) ∧
    step (s.waiting (.access agent (.read .word 0x00))) = .next (s.replied agent (.word 0))

/-- Every access completes in one step: no state stops the machine (R69, R250). -/
def Obligations.EveryStepCompletes : Prop := ∀ s : State, ∃ t, step s = .next t

/-- With no access waiting the machine is idle and nothing changes (R6; that such a step is one at all is log entry 2). -/
def Obligations.IdleEngineNeverSteps : Prop := ∀ s : State, s.pending = [] → step s = .next s

/-- The machine takes the waiting events in the port's one order and does nothing between them (R7, R64). The list of waiting events
is the model's own (log entries 1 and 12), and so is that events behind a reset (R230) are still taken (log entry 6). -/
def Obligations.StepsTakeTheAccessesInPortOrder : Prop :=
  ∀ (es rest : List PortEvent) (s : State),
    Host.Core.run Sys2Proof.core es.length { s with pending := es ++ rest } = runEvents es { s with pending := rest }

/-! ## Reset and the invariant -/

/-- Reset is a step of its own and sets every piece of the engine's state to its reset value, whatever the state (R230). -/
def Obligations.ResetClearsEveryPieceOfState : Prop :=
  State.reset.engine = Engine.reset ∧
  ∀ s : State, ∃ t, step (s.waiting .reset) = .next t ∧ t.engine = State.reset.engine ∧
    let e := t.engine
    e.data = 0x00000000 ∧ e.src = 0x00000000 ∧ e.dst = 0x00000000 ∧ e.pid = 0x00000000 ∧ e.csum = 0x00000000 ∧
    e.acc = 0x00000000 ∧ e.cnt = 0x00000000 ∧ e.fval = 0x00000000 ∧ e.einfo = 0x00000000 ∧ e.pend = 0x00 ∧
    e.zero = false ∧ e.ovf = false ∧ e.odd = false ∧ e.err = false ∧ e.ecode = 0 ∧ ∀ k, e.pkt.read k = 0x00

/-- After reset `STATUS` and `WIRELEN` read 0, and a FINAL writes 0xFFFF (R231). -/
def Obligations.FirstReadsAfterReset : Prop :=
  ∀ agent : Nat,
    step (State.reset.waiting (regRead agent .status)) = .next (State.reset.replied agent (.word 0x00000000)) ∧
    step (State.reset.waiting (regRead agent .wirelen)) = .next (State.reset.replied agent (.word 0x00000000)) ∧
    ∃ t, exec .final State.reset = .next t ∧ t.engine.csum = 0x0000FFFF ∧ t.engine.zero = false

/-- The invariant holds at reset. -/
def Obligations.InvariantHoldsAtReset : Prop := State.reset.Inv

/-- Every step keeps the invariant: the buffer keeps 28 bytes in canonical form (R131), the high half of `CSUM` reads 0 (R34),
`ZERO` stands only beside a zero `CSUM` (R27), `PEND` is 0 while no byte waits (R32), `ECODE` is a code of the table (R201), and
`ECODE` and `EINFO` are 0 exactly as `ERR` says (R30, R31, R40). -/
def Obligations.EveryStepKeepsTheInvariant : Prop := ∀ s t : State, s.Inv → step s = .next t → t.Inv

/-! ## Host accesses -/

/-- The read step of R59: a register at its offset, the window, or a bad access that returns 0; a legal read changes nothing. -/
def Obligations.HostReadFollowsTheRegisterMap : Prop :=
  ∀ (s : State) (agent : Nat) (n : Width) (off : Offset),
    let e := s.engine
    let isReg : Prop := n = .word ∧ off.val % 4 = 0 ∧ off.val ≤ 0x2C
    let isWin : Prop := 0x40 ≤ off.val ∧ (off.val - 0x40) % n.bytes = 0 ∧ (off.val - 0x40) + n.bytes ≤ 28
    (∀ p ∈ ([(0x00, 0x00000000), (0x04, e.data),
        (0x08, 0#16 ++ (e.pend ++ (e.ecode ++ (BitVec.ofBool e.err ++ (e.cnt.extractLsb' 0 1 ++
          (BitVec.ofBool e.ovf ++ BitVec.ofBool e.zero)))))),
        (0x0C, e.csum), (0x10, e.acc), (0x14, e.cnt), (0x18, e.src), (0x1C, e.dst), (0x20, e.pid),
        (0x24, (e.pkt.read 2 ++ e.pkt.read 3).zeroExtend 32), (0x28, e.fval), (0x2C, e.einfo)] : List (Nat × Word)),
      isReg → off.val = p.1 → step (s.waiting (.access agent (.read n off))) = .next (s.replied agent (.word p.2))) ∧
    (isWin → step (s.waiting (.access agent (.read n off))) =
      .next (s.replied agent (memRead e.pkt (off.val - 0x40) n))) ∧
    (¬isReg → ¬isWin → step (s.waiting (.access agent (.read n off))) =
      .next ((s.replied agent (match n with
        | .byte => .byte 0x00
        | .half => .half 0x0000
        | .word => .word 0x00000000)).withEngine (raiseError .badAccess (badAccessInfo false n off) e)))

/-- The write step of R60: a command, an operand register, `STATUS`, a read-only register, the window, or a bad access. -/
def Obligations.HostWriteFollowsTheRegisterMap : Prop :=
  ∀ (s : State) (agent : Nat) (off : Offset) (v : Value),
    let e := s.engine
    let after := step (s.waiting (.access agent (.write off v)))
    let isWin : Prop := 0x40 ≤ off.val ∧ (off.val - 0x40) % v.width.bytes = 0 ∧ (off.val - 0x40) + v.width.bytes ≤ 28
    (∀ w, v = .word w →
      (off = 0x00 → after = execute w s) ∧
      (off = 0x04 → after = .next (s.withEngine { e with data := w })) ∧
      (off = 0x08 → after = .next (s.withEngine { e with
        ovf := e.ovf && !w.getLsbD 1, err := e.err && !w.getLsbD 3,
        ecode := if w.getLsbD 3 = true then 0 else e.ecode, einfo := if w.getLsbD 3 = true then 0 else e.einfo })) ∧
      (off = 0x18 → after = .next (s.withEngine { e with src := w })) ∧
      (off = 0x1C → after = .next (s.withEngine { e with dst := w })) ∧
      (off = 0x20 → after = .next (s.withEngine { e with pid := w })) ∧
      (off ∈ ([0x0C, 0x10, 0x14, 0x24, 0x28, 0x2C] : List Offset) →
        after = .next (s.withEngine (raiseError .badAccess (badAccessInfo true .word off) e)))) ∧
    (isWin → after = .next (s.withEngine { e with pkt := memWrite e.pkt (off.val - 0x40) v })) ∧
    (¬(v.width = .word ∧ off.val % 4 = 0 ∧ off.val ≤ 0x2C) → ¬isWin →
      after = .next (s.withEngine (raiseError .badAccess (badAccessInfo true v.width off) e)))

/-- What `EINFO` records with the first error (R205): the command word for a command's error; for an access that is no command,
the record of a bad access, with `wr`, `sz` and `off` in their places and `sz` never 3. -/
def Obligations.ErrorRecordHoldsTheWordOrTheAccess : Prop :=
  (∀ (w : Word) (s t : State), s.engine.err = false → execute w s = .next t → t.engine.err = true →
    t.engine.einfo = w) ∧
  (∀ (s t : State) (agent : Nat) (n : Width) (off : Offset), s.engine.err = false →
    performEvent (.access agent (.read n off)) s = .next t → t.engine.err = true →
    t.engine.einfo = badAccessInfo false n off) ∧
  (∀ (s t : State) (agent : Nat) (off : Offset) (v : Value), s.engine.err = false → (∀ w, v = .word w → off ≠ 0x00) →
    performEvent (.access agent (.write off v)) s = .next t → t.engine.err = true →
    t.engine.einfo = badAccessInfo true v.width off) ∧
  ∀ (wr : Bool) (n : Width) (off : Offset),
    let info := badAccessInfo wr n off
    (info.extractLsb' 0 8).toNat = off.val ∧ 2 ^ (info.extractLsb' 8 2).toNat = n.bytes ∧
    info.extractLsb' 8 2 ≠ 3 ∧ info.getLsbD 10 = wr ∧ info.extractLsb' 11 21 = 0

/-- Big-endian window accesses of mixed width see one byte array (R62). -/
def Obligations.WindowWordReadsBackAsHalfAndByte : Prop :=
  ∀ (s : State) (agent : Nat) (v : Word) (off off2 : Offset),
    0x40 ≤ off.val → off.val % 4 = 0 → off.val + 4 ≤ 0x5C → off2.val = off.val + 2 →
    ∃ t, runEvents [.access agent (.write off (.word v)), .access agent (.read .half off2),
        .access agent (.read .byte off), .access agent (.read .word off)] s = .next t ∧
      t.replies = [⟨agent, .word v⟩, ⟨agent, .byte (v.extractLsb' 24 8)⟩, ⟨agent, .half (v.extractLsb' 0 16)⟩] ++ s.replies

/-- Reads, and writes to anything but `CMD`, are idempotent: the second leaves the engine as the first did and returns the same
value (R65). -/
def Obligations.AccessesOtherThanCommandsAreIdempotent : Prop :=
  ∀ (s t : State) (agent : Nat) (a : Access), s.Inv →
    (∀ w, a ≠ .write 0x00 (.word w)) → runEvents [.access agent a] s = .next t →
    ∃ u r, runEvents [.access agent a] t = .next u ∧ u.engine = t.engine ∧
      t.replies = r ++ s.replies ∧ u.replies = r ++ t.replies

/-- The operand registers take any 32-bit value, read it back, and only a host write to the register or reset changes them
(R22, R23, R24, R25). -/
def Obligations.OperandRegistersBelongToTheHost : Prop :=
  (∀ (s : State) (agent : Nat) (v : Word) (r : Reg), r ∈ [Reg.data, Reg.src, Reg.dst, Reg.pid] →
    ∃ t, runEvents [regWrite agent r v, regRead agent r] s = .next t ∧ t.replies = ⟨agent, .word v⟩ :: s.replies) ∧
  ∀ (s t : State) (ev : PortEvent), performEvent ev s = .next t → ev ≠ .reset →
    (t.engine.data ≠ s.engine.data → ∃ agent v, ev = regWrite agent .data v) ∧
    (t.engine.src ≠ s.engine.src → ∃ agent v, ev = regWrite agent .src v) ∧
    (t.engine.dst ≠ s.engine.dst → ∃ agent v, ev = regWrite agent .dst v) ∧
    (t.engine.pid ≠ s.engine.pid → ∃ agent v, ev = regWrite agent .pid v)

/-- The engine does not know which agent issues an access: its next state and the value read are the same (R37, R215). -/
def Obligations.EngineDoesNotDistinguishAgents : Prop :=
  ∀ (s t : State) (a b : Nat) (acc : Access), performEvent (.access a acc) s = .next t →
    ∃ u, performEvent (.access b acc) s = .next u ∧ u.engine = t.engine ∧
      u.replies.map Reply.value = t.replies.map Reply.value

/-- With `CKE_BASE` any address: an access inside the engine's offsets is the engine's access there, and one outside is refused
as not the engine's (R51; 93_implementation_defined item 18). -/
def Obligations.PlatformAddressesAreOffsetsFromTheBase : Prop :=
  ∀ (base agent : Nat) (s : State),
    (∀ (n : Width) (off : Offset), platformStep base agent (.read n (base + off.val)) s =
      performAccess agent (.read n off) s) ∧
    (∀ (off : Offset) (v : Value), platformStep base agent (.write (base + off.val) v) s =
      performAccess agent (.write off v) s) ∧
    ∀ p : PlatformAccess, p.addr < base ∨ base + 0x60 ≤ p.addr →
      platformStep base agent p s = .refused (.outsideEngine p.addr)

/-! ## Errors -/

/-- `raise Error(code, info)` (R204): the first error since `ERR` was cleared is recorded, a later one is not, nothing else
changes, and a read that raises returns 0. -/
def Obligations.RaisingAnErrorRecordsTheFirst : Prop :=
  ∀ (c : ErrorCode) (info : Word) (e : Engine),
    (e.err = false → raiseError c info e = { e with err := true, ecode := c.bits, einfo := info }) ∧
    (e.err = true → raiseError c info e = e) ∧
    ∀ (s : State) (agent : Nat) (n : Width) (off : Offset), regAt n off = none → windowIndex n off = none →
      step (s.waiting (.access agent (.read n off))) =
        .next ((s.replied agent (match n with
          | .byte => .byte 0x00
          | .half => .half 0x0000
          | .word => .word 0x00000000)).withEngine (raiseError .badAccess (badAccessInfo false n off) s.engine))

/-- Errors are precise (R203): an access that raises an error changes nothing but `ERR`, `ECODE` and `EINFO`. Where `ERR` stood
already, an access raises an error when it does so from the same state with `ERR` clear, and then changes nothing at all. -/
def Obligations.ErrorsArePrecise : Prop :=
  ∀ (s t : State) (agent : Nat) (a : Access), performEvent (.access agent a) s = .next t →
    (s.engine.err = false → t.engine.err = true →
      { t.engine with err := false, ecode := s.engine.ecode, einfo := s.engine.einfo } = s.engine) ∧
    (s.engine.err = true → ∀ u, performEvent (.access agent a) (s.withEngine { s.engine with err := false }) = .next u →
      u.engine.err = true → t.engine = s.engine)

/-- While `ERR` is 1 every access that raises no error does what it does while `ERR` is 0, unless it is the `STATUS` write that
clears `ERR`; a read of `STATUS` shows bit 3 set and no other difference (R208). -/
def Obligations.ErrorFlagDoesNotChangeExecution : Prop :=
  ∀ (s t u : State) (agent : Nat) (a : Access), s.engine.err = true →
    (∀ w, a = .write 0x08 (.word w) → w.getLsbD 3 = false) →
    performEvent (.access agent a) s = .next t →
    performEvent (.access agent a) (s.withEngine { s.engine with err := false }) = .next u → u.engine.err = false →
    t.engine = { u.engine with err := true } ∧ (a ≠ .read .word 0x08 → t.replies = u.replies) ∧
    (a = .read .word 0x08 → ∃ w : Word, w.getLsbD 3 = false ∧ u.replies = ⟨agent, .word w⟩ :: s.replies ∧
      t.replies = ⟨agent, .word (w ||| 0x00000008)⟩ :: s.replies)

/-- The code each command can raise, and no command raises BAD_ACCESS (R202). -/
def Obligations.CommandsRaiseOnlyTheirOwnCodes : Prop :=
  ∀ (w : Word) (s t : State), s.engine.err = false → execute w s = .next t → t.engine.err = true →
    (decode w = .error .illegalOp ∧ t.engine.ecode = 1) ∨ (decode w = .error .reservedField ∧ t.engine.ecode = 2) ∨
    (∃ off len, decode w = .ok (.csumbuf off len) ∧ t.engine.ecode = 3) ∨
    (∃ fid, decode w = .ok (.fset fid) ∧ (t.engine.ecode = 4 ∨ t.engine.ecode = 5)) ∨
    (∃ fid, decode w = .ok (.fget fid) ∧ t.engine.ecode = 4)

/-- The first failing check decides the code (R206): ILLEGAL_OP, RESERVED_FIELD, then RANGE for CSUMBUF, BAD_FIELD and then
VALUE for FSET, BAD_FIELD for FGET. -/
def Obligations.FirstFailingCheckDecidesTheCode : Prop :=
  ∀ (rsv b a op : Byte) (s : State),
    let w : Word := rsv ++ (b ++ (a ++ op))
    let raises (c : ErrorCode) : Prop := execute w s = .next (s.withEngine (raiseError c w s.engine))
    (op.toNat ∉ [0x00, 0x01, 0x02, 0x03, 0x04, 0x05, 0x10, 0x11, 0x12, 0x13, 0x14, 0x20, 0x21] → raises .illegalOp) ∧
    (op.toNat ∈ [0x00, 0x01, 0x02, 0x03, 0x04, 0x05, 0x10, 0x11, 0x12, 0x13] → rsv ≠ 0 ∨ b ≠ 0 ∨ a ≠ 0 →
      raises .reservedField) ∧
    (op = 0x14 → rsv ≠ 0 → raises .reservedField) ∧
    (op = 0x14 → rsv = 0 → 28 < a.toNat + b.toNat → raises .range) ∧
    (op = 0x20 → rsv ≠ 0 ∨ b ≠ 0 → raises .reservedField) ∧
    (op = 0x20 → rsv = 0 → b = 0 → 15 < a.toNat → raises .badField) ∧
    (op = 0x20 → rsv = 0 → b = 0 → ∀ f, fieldOfId a.toNat = some f → 2 ^ fieldWidth f ≤ s.engine.data.toNat →
      raises .value) ∧
    (op = 0x21 → rsv ≠ 0 ∨ b ≠ 0 → raises .reservedField) ∧
    (op = 0x21 → rsv = 0 → b = 0 → 15 < a.toNat → raises .badField)

/-- Error return is a `STATUS` write with bit 3 set (R210): it clears `ERR`, `ECODE` and `EINFO`, and while `ERR` is 0 it changes
nothing. -/
def Obligations.StatusWriteWithBit3IsTheErrorReturn : Prop :=
  ∀ (s : State) (agent : Nat) (v : Word), v.getLsbD 3 = true →
    ∃ e, step (s.waiting (regWrite agent .status v)) = .next (s.withEngine e) ∧
      e.err = false ∧ e.ecode = 0 ∧ e.einfo = 0x00000000 ∧
      { e with err := s.engine.err, ecode := s.engine.ecode, einfo := s.engine.einfo, ovf := s.engine.ovf } = s.engine ∧
      e.ovf = (s.engine.ovf && !v.getLsbD 1) ∧
      (s.Inv → s.engine.err = false → v.getLsbD 1 = false → e = s.engine)

/-- `OVF` is sticky (R28): set by a carry out of bit 31 in FeedByte or FINAL; only CLR, a `STATUS` write with bit 1 set, or reset
clears it. -/
def Obligations.OverflowFlagIsSticky : Prop :=
  (∀ s : State, ∃ t, exec .clr s = .next t ∧ t.engine.ovf = false) ∧
  (∀ (b : Byte) (e : Engine), (feedByte b e).ovf =
    (e.ovf || (e.odd && decide (2 ^ 32 ≤ e.acc.toNat + (e.pend ++ b : Half).toNat)))) ∧
  (∀ s t : State, exec .final s = .next t → t.engine.ovf =
    (s.engine.ovf || (s.engine.odd && decide (2 ^ 32 ≤ s.engine.acc.toNat + (s.engine.pend ++ 0#8 : Half).toNat)))) ∧
  (∀ (s t : State) (ev : PortEvent), performEvent ev s = .next t → s.engine.ovf = true → t.engine.ovf = false →
    ev = .reset ∨ (∃ agent, ev = regWrite agent .cmd 0x00000001) ∨
      ∃ agent v, ev = regWrite agent .status v ∧ v.getLsbD 1 = true) ∧
  (∀ (s t : State) (ev : PortEvent), performEvent ev s = .next t → s.engine.ovf = false → t.engine.ovf = true →
    ∃ agent w, ev = regWrite agent .cmd w ∧ (w = 0x00000002 ∨ w = 0x00000003 ∨ w = 0x00000004 ∨ w = 0x00000005)) ∧
  ∀ (s : State) (agent : Nat) (v : Word), v.getLsbD 1 = true →
    ∃ t, step (s.waiting (regWrite agent .status v)) = .next t ∧ t.engine.ovf = false

/-- `ERR` is set by every error and cleared only by a `STATUS` write with bit 3 set (or reset), so a run with no such event that
ends with `ERR` clear had it clear throughout (R30, R209). -/
def Obligations.CleanErrorFlagMeansNoAccessErred : Prop :=
  ∀ (es fs : List PortEvent) (s t u : State),
    (∀ ev ∈ es ++ fs, ev ≠ .reset ∧ ∀ agent w, ev = .access agent (.write 0x08 (.word w)) → w.getLsbD 3 = false) →
    runEvents es s = .next t → runEvents fs t = .next u → u.engine.err = false → t.engine.err = false ∧ s.engine.err = false

/-! ## Control and streaming -/

/-- NOP (R190). -/
def Obligations.NopChangesNothing : Prop :=
  decode 0x00000000 = .ok .nop ∧ RejectsOtherBits 0x00000000 ∧ ∀ s, exec .nop s = .next s

/-- CLR (R103). -/
def Obligations.ClrClearsTheStreamingState : Prop :=
  decode 0x00000001 = .ok .clr ∧ RejectsOtherBits 0x00000001 ∧
  ∀ s : State, exec .clr s = .next (s.withEngine
    { s.engine with acc := 0x00000000, cnt := 0x00000000, pend := 0x00, ovf := false }) ∧
    ({ s.engine with acc := 0x00000000, cnt := 0x00000000, pend := 0x00, ovf := false } : Engine).odd = false

/-- `FeedByte(b)` (R104). -/
def Obligations.FeedByteWaitsOrCompletesAWord : Prop :=
  ∀ (b : Byte) (e : Engine),
    (e.cnt.getLsbD 0 = false → feedByte b e = { e with pend := b, cnt := e.cnt + 1 }) ∧
    (e.cnt.getLsbD 0 = true →
      let sum := e.acc.toNat + (256 * e.pend.toNat + b.toNat)
      feedByte b e = { e with acc := BitVec.ofNat 32 (sum % 2 ^ 32), pend := 0x00,
                              ovf := e.ovf || decide (2 ^ 32 ≤ sum), cnt := e.cnt + 1 })

/-- FEED8 (R105): one byte, `DATA[7:0]`; `ODD` toggles. -/
def Obligations.Feed8FeedsTheLowByte : Prop :=
  decode 0x00000002 = .ok .feed8 ∧ RejectsOtherBits 0x00000002 ∧
  ∀ s : State, exec .feed8 s = .next (s.withEngine (feedByte (s.engine.data.extractLsb' 0 8) s.engine)) ∧
    (feedByte (s.engine.data.extractLsb' 0 8) s.engine).odd = !s.engine.odd

/-- FEED16 (R106): two bytes, the more significant first, so `ODD` stays; between words it adds `DATA[15:0]`, and after an odd
byte it completes the waiting word and leaves `DATA[7:0]` waiting. -/
def Obligations.Feed16FeedsTwoBytes : Prop :=
  decode 0x00000003 = .ok .feed16 ∧ RejectsOtherBits 0x00000003 ∧
  ∀ s : State, ∃ e, exec .feed16 s = .next (s.withEngine e) ∧
    e = feedByte (s.engine.data.extractLsb' 0 8) (feedByte (s.engine.data.extractLsb' 8 8) s.engine) ∧
    e.odd = s.engine.odd ∧ e.cnt = s.engine.cnt + 2 ∧
    { e with acc := s.engine.acc, cnt := s.engine.cnt, pend := s.engine.pend, ovf := s.engine.ovf } = s.engine ∧
    (s.engine.odd = false →
      let sum := s.engine.acc.toNat + (s.engine.data.extractLsb' 0 16).toNat
      e.acc = BitVec.ofNat 32 sum ∧ e.pend = 0x00 ∧ e.ovf = (s.engine.ovf || decide (2 ^ 32 ≤ sum))) ∧
    (s.engine.odd = true →
      let sum := s.engine.acc.toNat + (256 * s.engine.pend.toNat + (s.engine.data.extractLsb' 8 8).toNat)
      e.acc = BitVec.ofNat 32 sum ∧ e.pend = s.engine.data.extractLsb' 0 8 ∧
        e.ovf = (s.engine.ovf || decide (2 ^ 32 ≤ sum)))

/-- FEED32 (R107): four bytes, the most significant first, in one step. -/
def Obligations.Feed32FeedsFourBytes : Prop :=
  decode 0x00000004 = .ok .feed32 ∧ RejectsOtherBits 0x00000004 ∧
  ∀ s : State, ∃ e, exec .feed32 s = .next (s.withEngine e) ∧
    e = feedByte (s.engine.data.extractLsb' 0 8) (feedByte (s.engine.data.extractLsb' 8 8)
      (feedByte (s.engine.data.extractLsb' 16 8) (feedByte (s.engine.data.extractLsb' 24 8) s.engine))) ∧
    e.odd = s.engine.odd ∧ e.cnt = s.engine.cnt + 4 ∧
    { e with acc := s.engine.acc, cnt := s.engine.cnt, pend := s.engine.pend, ovf := s.engine.ovf } = s.engine ∧
    (s.engine.odd = false → e.pend = 0x00 ∧ e.acc = s.engine.acc +
      ((s.engine.data.extractLsb' 16 16).zeroExtend 32 + (s.engine.data.extractLsb' 0 16).zeroExtend 32)) ∧
    (s.engine.odd = true → e.pend = s.engine.data.extractLsb' 0 8 ∧ e.acc = s.engine.acc +
      ((s.engine.pend ++ s.engine.data.extractLsb' 24 8).zeroExtend 32 + (s.engine.data.extractLsb' 8 16).zeroExtend 32))

/-- FINAL (R110): the complemented fold of `ACC` and the pad of a waiting byte, without changing `ACC`, `CNT` or `PEND`; a second
FINAL changes nothing more. -/
def Obligations.FinalWritesTheComplementedFoldOfAccAndPad : Prop :=
  decode 0x00000005 = .ok .final ∧ RejectsOtherBits 0x00000005 ∧
  ∀ s : State,
    let pad := if s.engine.cnt.getLsbD 0 = true then 256 * s.engine.pend.toNat else 0
    let sum := s.engine.acc.toNat + pad
    let r : Half := ~~~(fold16 (BitVec.ofNat 32 (sum % 2 ^ 32)))
    let e := { s.engine with csum := r.zeroExtend 32, zero := decide (r = 0x0000),
                             ovf := s.engine.ovf || decide (2 ^ 32 ≤ sum) }
    exec .final s = .next (s.withEngine e) ∧ exec .final (s.withEngine e) = .next (s.withEngine e)

/-! ## The checksum function -/

/-- `Fold16(v)` (R101), its two sums in 17 bits: the first is at most 0x1FFFE, the second fits 16 bits, and the result is 0
exactly when `v` is. -/
def Obligations.Fold16AddsTheHalvesTwice : Prop :=
  ∀ v : Word,
    let t1 : BitVec 17 := (v.extractLsb' 16 16).zeroExtend 17 + (v.extractLsb' 0 16).zeroExtend 17
    let t2 : BitVec 17 := (t1.extractLsb' 16 1).zeroExtend 17 + (t1.extractLsb' 0 16).zeroExtend 17
    t1.toNat = v.toNat / 2 ^ 16 + v.toNat % 2 ^ 16 ∧ t1.toNat ≤ 0x1FFFE ∧ t2.toNat ≤ 0xFFFF ∧
    fold16 v = t2.extractLsb' 0 16 ∧ (fold16 v = 0 ↔ v = 0)

/-- The verify property (R102): with a checksum field at an even offset that held 0, the checksum over the same bytes with the
computed value in the field is 0, for at most `SAFE_BYTES` bytes. Both header checksum fields are at even offsets of their headers;
at an odd offset the property can fail (spec/90_conflicts.md C4). -/
def Obligations.ChecksumInstalledAtEvenOffsetVerifies : Prop :=
  fieldAt .ipSum % 2 = 0 ∧ (fieldAt .icmpSum - 20) % 2 = 0 ∧ 20 ≤ fieldAt .icmpSum ∧
  checksum [0x12, 0x00, 0x00, 0x34, 0x56] = 0x97CB ∧ checksum [0x12, 0x97, 0xCB, 0x34, 0x56] ≠ 0x0000 ∧
  ∀ (b : List Byte) (k : Nat), b.length ≤ 131074 → k % 2 = 0 → k + 1 < b.length →
    b[k]? = some 0x00 → b[k + 1]? = some 0x00 →
    let c := checksum b
    checksum ((b.set k (c.extractLsb' 8 8)).set (k + 1) (c.extractLsb' 0 8)) = 0x0000

/-- The result is 0xFFFF exactly when every byte is 0, up to `SAFE_BYTES` bytes (R109). -/
def Obligations.ChecksumIsAllOnesOnlyOfZeroBytes : Prop :=
  ∀ b : List Byte, b.length ≤ 131074 → (checksum b = 0xFFFF ↔ ∀ x ∈ b, x = 0x00)

/-- The checksum does not depend on the order of the 16-bit words of an even-length input (R109). -/
def Obligations.ChecksumIgnoresTheOrderOfWords : Prop :=
  ∀ ws vs : List Half, ws.Perm vs → checksum (ws.flatMap halfBytes) = checksum (vs.flatMap halfBytes)

/-- Swapping the bytes of every word of an even-length input swaps the bytes of its checksum, up to `SAFE_BYTES` bytes (R109,
marked there as general knowledge). -/
def Obligations.ChecksumOfSwappedBytesIsSwapped : Prop :=
  ∀ ws : List Half, 2 * ws.length ≤ 131074 →
    checksum (ws.flatMap fun w => [w.extractLsb' 0 8, w.extractLsb' 8 8]) =
      (checksum (ws.flatMap halfBytes)).extractLsb' 0 8 ++ (checksum (ws.flatMap halfBytes)).extractLsb' 8 8

/-- Streaming is the checksum function (R108): from any state, CLR, any feeds and FINAL leave in `CSUM` the checksum of the bytes
fed, and in `CNT` their count; `OVF` then says whether their exact sum exceeds 32 bits, which up to `SAFE_BYTES` it does not. -/
def Obligations.StreamedChecksumIsTheChecksumOfTheBytesFed : Prop :=
  ∀ (s : State) (agent : Nat) (fs : List Feed),
    let bytes := fs.flatMap fedBy
    ∃ t, runEvents (regWrite agent .cmd 0x00000001 :: (fs.flatMap (feedEvents agent) ++ [regWrite agent .cmd 0x00000005])) s =
        .next t ∧
      t.engine.csum = (checksum bytes).zeroExtend 32 ∧ t.engine.zero = decide (checksum bytes = 0) ∧
      t.engine.cnt = BitVec.ofNat 32 bytes.length ∧ t.engine.ovf = decide (2 ^ 32 ≤ wordSum bytes) ∧
      (bytes.length ≤ 131074 → t.engine.ovf = false) ∧
      (sumWords 0 bytes).toNat = wordSum bytes % 2 ^ 32

/-- CSUMBUF (R113): its word, RANGE, and the checksum of the region otherwise; an empty region gives 0xFFFF. -/
def Obligations.CsumbufWritesTheChecksumOfTheRegion : Prop :=
  (∀ (rsv len off : Byte), decode (rsv ++ (len ++ (off ++ 0x14#8)) : Word) =
    if rsv = 0 then .ok (.csumbuf off.toNat len.toNat) else .error .reservedField) ∧
  ∀ (s : State) (off len : Nat),
    (28 < off + len → exec (.csumbuf off len) s = .next (s.withEngine
      (raiseError .range (0#8 ++ (BitVec.ofNat 8 len ++ (BitVec.ofNat 8 off ++ 0x14#8))) s.engine))) ∧
    (off + len ≤ 28 →
      let r := checksum ((List.range len).map fun j => s.engine.pkt.read (off + j))
      exec (.csumbuf off len) s = .next (s.withEngine
        { s.engine with csum := r.zeroExtend 32, zero := decide (r = 0x0000) }) ∧
      (len = 0 → r = 0xFFFF))

/-- Equal regions give equal results whatever else the states hold, and equal feed sequences from CLR do too (R114). -/
def Obligations.EqualBytesGiveEqualChecksums : Prop :=
  (∀ (s u : State) (off len : Nat), off + len ≤ 28 →
    (∀ k, off ≤ k → k < off + len → s.engine.pkt.read k = u.engine.pkt.read k) →
    ∃ t v, exec (.csumbuf off len) s = .next t ∧ exec (.csumbuf off len) u = .next v ∧
      t.engine.csum = v.engine.csum ∧ t.engine.zero = v.engine.zero) ∧
  ∀ (s u : State) (a b : Nat) (fs : List Feed),
    ∃ t v, runEvents (regWrite a .cmd 0x00000001 :: (fs.flatMap (feedEvents a) ++ [regWrite a .cmd 0x00000005])) s = .next t ∧
      runEvents (regWrite b .cmd 0x00000001 :: (fs.flatMap (feedEvents b) ++ [regWrite b .cmd 0x00000005])) u = .next v ∧
      t.engine.csum = v.engine.csum ∧ t.engine.zero = v.engine.zero

/-- `ZERO` and `CSUM` change only together, by FINAL, CSUMBUF, INSICMP and INSIP (or reset), and `ZERO` then says whether the
result is 0; at reset it is 0 (R27). -/
def Obligations.ZeroFlagFollowsTheChecksumResult : Prop :=
  State.reset.engine.zero = false ∧
  (∀ (s t : State) (ev : PortEvent), performEvent ev s = .next t → ev ≠ .reset →
    t.engine.zero ≠ s.engine.zero ∨ t.engine.csum ≠ s.engine.csum →
    ∃ agent w i, ev = regWrite agent .cmd w ∧ decode w = .ok i ∧
      (i = .final ∨ i = .insicmp ∨ i = .insip ∨ ∃ off len, i = .csumbuf off len)) ∧
  ∀ (s : State) (i : Instr), i = .final ∨ i = .insicmp ∨ i = .insip ∨ (∃ off len, i = .csumbuf off len ∧ off + len ≤ 28) →
    ∃ t, exec i s = .next t ∧ t.engine.zero = decide (t.engine.csum = 0) ∧ t.engine.csum.extractLsb' 16 16 = 0

/-! ## The packet buffer -/

/-- PKTZ (R130). -/
def Obligations.PktzZeroesTheBuffer : Prop :=
  decode 0x00000010 = .ok .pktz ∧ RejectsOtherBits 0x00000010 ∧
  ∀ s : State, ∃ e, exec .pktz s = .next (s.withEngine e) ∧ { e with pkt := s.engine.pkt } = s.engine ∧
    (∀ k, k < 28 → e.pkt.read k = 0x00) ∧ (∀ k, 28 ≤ k → e.pkt.read k = s.engine.pkt.read k) ∧ e.wirelen = 0

/-- BUILD (R141): every byte of the buffer after it; bytes 6 and 7, `IP_FRAG`, are kept; `WIRELEN` reads 28; a second BUILD writes the same. -/
def Obligations.BuildWritesBothHeaders : Prop :=
  decode 0x00000011 = .ok .build ∧ RejectsOtherBits 0x00000011 ∧
  ∀ s : State, ∃ e, exec .build s = .next (s.withEngine e) ∧ { e with pkt := s.engine.pkt } = s.engine ∧
    e.pkt.region 0 28 =
      [0x45, 0x00, 0x00, 0x1C, s.engine.pid.extractLsb' 8 8, s.engine.pid.extractLsb' 0 8,
       s.engine.pkt.read 6, s.engine.pkt.read 7, 0xFF, 0x01, 0x00, 0x00,
       s.engine.src.extractLsb' 24 8, s.engine.src.extractLsb' 16 8, s.engine.src.extractLsb' 8 8, s.engine.src.extractLsb' 0 8,
       s.engine.dst.extractLsb' 24 8, s.engine.dst.extractLsb' 16 8, s.engine.dst.extractLsb' 8 8, s.engine.dst.extractLsb' 0 8,
       0x08, 0x00, 0x00, 0x00, 0x00, 0x00, 0x00, 0x00] ∧
    (∀ k, 28 ≤ k → e.pkt.read k = s.engine.pkt.read k) ∧ e.wirelen = 28 ∧
    ∃ e', exec .build (s.withEngine e) = .next (s.withEngine e') ∧ ∀ k, e'.pkt.read k = e.pkt.read k

/-- After BUILD, FGET of every field but `IP_FRAG` returns the value BUILD gives it (R142, with the whole BUILD column of R90). -/
def Obligations.FgetAfterBuildReturnsTheBuiltValue : Prop :=
  ∀ (s t : State) (f : Field), exec .build s = .next t →
    ∃ u, exec (.fget (fieldId f)) t = .next u ∧
      (f ≠ .ipFrag → u.engine.fval =
        match f with
        | .ipVer => 4
        | .ipIhl => 5
        | .ipLen => 28
        | .ipId => (s.engine.pid.extractLsb' 0 16).zeroExtend 32
        | .ipTtl => 255
        | .ipProto => 1
        | .ipSrc => s.engine.src
        | .ipDst => s.engine.dst
        | .icmpType => 8
        | .ipTos | .ipFrag | .ipSum | .icmpCode | .icmpSum | .icmpId | .icmpSeq => 0)

/-- FSET (R150): its word, BAD_FIELD, VALUE, and the write of `DATA` to the field otherwise, which a following FGET returns and
which leaves every byte outside the field, and the other nibble of byte 0. The field ids, places and widths are the columns `FID`,
`at`, `n` and `W` of R90. -/
def Obligations.FsetWritesDataIntoTheField : Prop :=
  (∀ (rsv b fid : Byte), decode (rsv ++ (b ++ (fid ++ 0x20#8)) : Word) =
    if rsv = 0 ∧ b = 0 then .ok (.fset fid.toNat) else .error .reservedField) ∧
  (∀ (s : State) (fid : Nat),
    let w : Word := 0#8 ++ (0#8 ++ (BitVec.ofNat 8 fid ++ 0x20#8))
    (15 < fid → exec (.fset fid) s = .next (s.withEngine (raiseError .badField w s.engine))) ∧
    ∀ f : Field, fieldId f = fid →
      (2 ^ fieldWidth f ≤ s.engine.data.toNat →
        exec (.fset fid) s = .next (s.withEngine (raiseError .value w s.engine))) ∧
      (s.engine.data.toNat < 2 ^ fieldWidth f →
        ∃ e, exec (.fset fid) s = .next (s.withEngine e) ∧ { e with pkt := s.engine.pkt } = s.engine ∧
          (∃ u, exec (.fget fid) (s.withEngine e) = .next u ∧ u.engine.fval = s.engine.data) ∧
          (f = .ipVer → (e.pkt.read 0).extractLsb' 0 4 = (s.engine.pkt.read 0).extractLsb' 0 4) ∧
          (f = .ipIhl → (e.pkt.read 0).extractLsb' 4 4 = (s.engine.pkt.read 0).extractLsb' 4 4) ∧
          ∀ k, k < fieldAt f ∨ fieldAt f + (fieldBytes f).bytes ≤ k → e.pkt.read k = s.engine.pkt.read k)) ∧
  (∀ (fid : Nat) (f : Field), fieldOfId fid = some f ↔ fieldId f = fid) ∧
  ∀ f : Field, (fieldId f, fieldAt f, (fieldBytes f).bytes, fieldWidth f) =
    match f with
    | .ipVer => (0, 0, 1, 4)
    | .ipIhl => (1, 0, 1, 4)
    | .ipTos => (2, 1, 1, 8)
    | .ipLen => (3, 2, 2, 16)
    | .ipId => (4, 4, 2, 16)
    | .ipFrag => (5, 6, 2, 16)
    | .ipTtl => (6, 8, 1, 8)
    | .ipProto => (7, 9, 1, 8)
    | .ipSum => (8, 10, 2, 16)
    | .ipSrc => (9, 12, 4, 32)
    | .ipDst => (10, 16, 4, 32)
    | .icmpType => (11, 20, 1, 8)
    | .icmpCode => (12, 21, 1, 8)
    | .icmpSum => (13, 22, 2, 16)
    | .icmpId => (14, 24, 2, 16)
    | .icmpSeq => (15, 26, 2, 16)

/-- FGET (R160): its word, BAD_FIELD, and the field's value in `FVAL` otherwise; nothing else changes. Each field id
of R90 is given with the bytes it reads (R143). -/
def Obligations.FgetReadsTheFieldIntoFval : Prop :=
  (∀ (rsv b fid : Byte), decode (rsv ++ (b ++ (fid ++ 0x21#8)) : Word) =
    if rsv = 0 ∧ b = 0 then .ok (.fget fid.toNat) else .error .reservedField) ∧
  ∀ (s : State) (fid : Nat),
    (15 < fid → exec (.fget fid) s = .next (s.withEngine
      (raiseError .badField (0#8 ++ (0#8 ++ (BitVec.ofNat 8 fid ++ 0x21#8))) s.engine))) ∧
    (∀ f : Field, fieldId f = fid →
      exec (.fget fid) s = .next (s.withEngine { s.engine with fval := fieldRead s.engine.pkt f })) ∧
    ∀ (m : Memory) (f : Field), (fieldId f, fieldRead m f) =
      let p := m.read
      match f with
      | .ipVer => (0, (p 0).zeroExtend 32 >>> 4)
      | .ipIhl => (1, (p 0).zeroExtend 32 &&& 0x0000000F)
      | .ipTos => (2, (p 1).zeroExtend 32)
      | .ipLen => (3, (p 2 ++ p 3).zeroExtend 32)
      | .ipId => (4, (p 4 ++ p 5).zeroExtend 32)
      | .ipFrag => (5, (p 6 ++ p 7).zeroExtend 32)
      | .ipTtl => (6, (p 8).zeroExtend 32)
      | .ipProto => (7, (p 9).zeroExtend 32)
      | .ipSum => (8, (p 10 ++ p 11).zeroExtend 32)
      | .ipSrc => (9, p 12 ++ (p 13 ++ (p 14 ++ p 15)))
      | .ipDst => (10, p 16 ++ (p 17 ++ (p 18 ++ p 19)))
      | .icmpType => (11, (p 20).zeroExtend 32)
      | .icmpCode => (12, (p 21).zeroExtend 32)
      | .icmpSum => (13, (p 22 ++ p 23).zeroExtend 32)
      | .icmpId => (14, (p 24 ++ p 25).zeroExtend 32)
      | .icmpSeq => (15, (p 26 ++ p 27).zeroExtend 32)

/-- The sixteen fields are independent (R143): writing one reads back, and leaves the value of every other, the other nibble of
byte 0 among them. -/
def Obligations.FieldsAreIndependent : Prop :=
  ∀ (m : Memory) (f : Field) (v : Word), v.toNat < 2 ^ fieldWidth f →
    fieldRead (fieldWrite m f v) f = v ∧ ∀ g, g ≠ f → fieldRead (fieldWrite m f v) g = fieldRead m g

/-- INSICMP (R170): the checksum of bytes 20 to 27 with the field zeroed, installed in bytes 22 and 23, most significant first;
a second INSICMP writes the same. -/
def Obligations.InsicmpInstallsTheIcmpChecksum : Prop :=
  decode 0x00000012 = .ok .insicmp ∧ RejectsOtherBits 0x00000012 ∧
  ∀ s : State,
    let p := s.engine.pkt.read
    let r := checksum [p 20, p 21, 0x00, 0x00, p 24, p 25, p 26, p 27]
    ∃ e, exec .insicmp s = .next (s.withEngine e) ∧ e.csum = r.zeroExtend 32 ∧ e.zero = decide (r = 0x0000) ∧
      { e with csum := s.engine.csum, zero := s.engine.zero, pkt := s.engine.pkt } = s.engine ∧
      e.pkt.read 22 = r.extractLsb' 8 8 ∧ e.pkt.read 23 = r.extractLsb' 0 8 ∧
      (∀ k, k ≠ 22 → k ≠ 23 → e.pkt.read k = p k) ∧
      ∃ e', exec .insicmp (s.withEngine e) = .next (s.withEngine e') ∧ ∀ k, e'.pkt.read k = e.pkt.read k

/-- INSIP (R172): the checksum of bytes 0 to 19 with the field zeroed, installed in bytes 10 and 11. -/
def Obligations.InsipInstallsTheIpChecksum : Prop :=
  decode 0x00000013 = .ok .insip ∧ RejectsOtherBits 0x00000013 ∧
  ∀ s : State,
    let p := s.engine.pkt.read
    let r := checksum [p 0, p 1, p 2, p 3, p 4, p 5, p 6, p 7, p 8, p 9, 0x00, 0x00, p 12, p 13, p 14, p 15, p 16, p 17, p 18, p 19]
    ∃ e, exec .insip s = .next (s.withEngine e) ∧ e.csum = r.zeroExtend 32 ∧ e.zero = decide (r = 0x0000) ∧
      { e with csum := s.engine.csum, zero := s.engine.zero, pkt := s.engine.pkt } = s.engine ∧
      e.pkt.read 10 = r.extractLsb' 8 8 ∧ e.pkt.read 11 = r.extractLsb' 0 8 ∧
      ∀ k, k ≠ 10 → k ≠ 11 → e.pkt.read k = p k

/-- The two installations are independent (R173): either order gives the same bytes, and `CSUM` and `ZERO` hold the result of the
one issued last. -/
def Obligations.InstallationsCommute : Prop :=
  ∀ s : State, ∃ a b ab ba, exec .insicmp s = .next a ∧ exec .insip a = .next ab ∧
    exec .insip s = .next b ∧ exec .insicmp b = .next ba ∧
    (∀ k, ab.engine.pkt.read k = ba.engine.pkt.read k) ∧
    ab.engine.csum = b.engine.csum ∧ ab.engine.zero = b.engine.zero ∧
    ba.engine.csum = a.engine.csum ∧ ba.engine.zero = a.engine.zero

/-- An installed checksum verifies (R174): after INSICMP, CSUMBUF 20, 8 writes 0, and after INSIP, CSUMBUF 0, 20 writes 0, in
every state whose bytes of the region are still those. -/
def Obligations.InstalledChecksumsVerify : Prop :=
  ∀ s t u : State,
    (exec .insicmp s = .next t → (∀ k, 20 ≤ k → k < 28 → u.engine.pkt.read k = t.engine.pkt.read k) →
      ∃ v, exec (.csumbuf 20 8) u = .next v ∧ v.engine.csum = 0x00000000 ∧ v.engine.zero = true) ∧
    (exec .insip s = .next t → (∀ k, k < 20 → u.engine.pkt.read k = t.engine.pkt.read k) →
      ∃ v, exec (.csumbuf 0 20) u = .next v ∧ v.engine.csum = 0x00000000 ∧ v.engine.zero = true)

/-- `WIRELEN` is the total-length field decoded from network byte order, at every read (R38), FGET of `IP_LEN` returns the same,
and the packet to send is that many bytes of the buffer, when it holds them (R175). -/
def Obligations.WirelenIsTheTotalLengthField : Prop :=
  ∀ (s : State) (agent : Nat),
    let len := 256 * (s.engine.pkt.read 2).toNat + (s.engine.pkt.read 3).toNat
    step (s.waiting (regRead agent .wirelen)) = .next (s.replied agent (.word (BitVec.ofNat 32 len))) ∧
    (∃ t, exec (.fget 3) s = .next t ∧ t.engine.fval = BitVec.ofNat 32 len) ∧
    (len ≤ 28 → wirePacket s.engine = some ((List.range len).map s.engine.pkt.read)) ∧
    (28 < len → wirePacket s.engine = none)

/-- Which command writes which state (R43): each command leaves everything it does not write. Only CSUMBUF, FSET and FGET can fail
a check of their own; they then write the error latch and nothing else. FSET of a 4-bit field leaves the other nibble. -/
def Obligations.CommandsWriteOnlyTheirState : Prop :=
  ∀ (i : Instr) (s t : State), exec i s = .next t →
    let onlyLatch : Prop := { t.engine with err := s.engine.err, ecode := s.engine.ecode, einfo := s.engine.einfo } = s.engine
    let onlyPkt : Prop := { t.engine with pkt := s.engine.pkt } = s.engine
    t.pending = s.pending ∧ t.replies = s.replies ∧
    match i with
    | .nop => t.engine = s.engine
    | .clr | .feed8 | .feed16 | .feed32 =>
      { t.engine with acc := s.engine.acc, cnt := s.engine.cnt, pend := s.engine.pend, ovf := s.engine.ovf } = s.engine
    | .final => { t.engine with csum := s.engine.csum, zero := s.engine.zero, ovf := s.engine.ovf } = s.engine
    | .csumbuf off len =>
      (28 < off + len → onlyLatch) ∧
      (off + len ≤ 28 → { t.engine with csum := s.engine.csum, zero := s.engine.zero } = s.engine)
    | .pktz => onlyPkt ∧ ∀ k, 28 ≤ k → t.engine.pkt.read k = s.engine.pkt.read k
    | .build => onlyPkt ∧ ∀ k, k = 6 ∨ k = 7 ∨ 28 ≤ k → t.engine.pkt.read k = s.engine.pkt.read k
    | .fset fid =>
      (15 < fid → onlyLatch) ∧
      ∀ f, fieldId f = fid →
        (2 ^ fieldWidth f ≤ s.engine.data.toNat → onlyLatch) ∧
        (s.engine.data.toNat < 2 ^ fieldWidth f → onlyPkt ∧
          (f = .ipVer → (t.engine.pkt.read 0).extractLsb' 0 4 = (s.engine.pkt.read 0).extractLsb' 0 4) ∧
          (f = .ipIhl → (t.engine.pkt.read 0).extractLsb' 4 4 = (s.engine.pkt.read 0).extractLsb' 4 4) ∧
          ∀ k, k < fieldAt f ∨ fieldAt f + (fieldBytes f).bytes ≤ k → t.engine.pkt.read k = s.engine.pkt.read k)
    | .fget fid =>
      (15 < fid → onlyLatch) ∧ (fid ≤ 15 → { t.engine with fval := s.engine.fval } = s.engine)
    | .insicmp => { t.engine with csum := s.engine.csum, zero := s.engine.zero, pkt := s.engine.pkt } = s.engine ∧
      ∀ k, k ≠ 22 → k ≠ 23 → t.engine.pkt.read k = s.engine.pkt.read k
    | .insip => { t.engine with csum := s.engine.csum, zero := s.engine.zero, pkt := s.engine.pkt } = s.engine ∧
      ∀ k, k ≠ 10 → k ≠ 11 → t.engine.pkt.read k = s.engine.pkt.read k

/-! ## Sequences -/

/-- There is no software reset, but a host can return every piece of state it can write to its reset value; `CSUM`, `FVAL` and
`ZERO` keep their last values (R232). -/
def Obligations.HostSequenceClearsAllButResults : Prop :=
  ∀ (s : State) (agent : Nat), s.Inv →
    ∃ es e, lineEvents agent [.wr .data 0, .wr .src 0, .wr .dst 0, .wr .pid 0, .cmd .clr, .cmd .pktz, .wr .status 0x0000000A] =
        some es ∧
      runEvents es s = .next (s.withEngine e) ∧
      e = { Engine.reset with csum := s.engine.csum, fval := s.engine.fval, zero := s.engine.zero }

/-- The construction sequence (R240), PREP of R93: from any state, it ends with the Echo Request in the buffer, both headers
verifying, the wire length 28 and no new error. -/
def Obligations.PrepBuildsAVerifyingEchoRequest : Prop :=
  ∀ (s : State) (agent : Nat) (src dst pid : Word),
    ∃ es e, lineEvents agent (expand (.prep src dst pid)) = some es ∧ runEvents es s = .next (s.withEngine e) ∧
      e.err = s.engine.err ∧ e.wirelen = 28 ∧
      checksum (e.pkt.region 0 20) = 0x0000 ∧ checksum (e.pkt.region 20 8) = 0x0000 ∧
      wirePacket e = some (e.pkt.region 0 28) ∧
      (∀ f, f ≠ .ipSum → f ≠ .icmpSum → fieldRead e.pkt f =
        match f with
        | .ipVer => 4
        | .ipIhl => 5
        | .ipLen => 28
        | .ipId => (pid.extractLsb' 0 16).zeroExtend 32
        | .ipTtl => 255
        | .ipProto => 1
        | .ipSrc => src
        | .ipDst => dst
        | .icmpType => 8
        | .ipTos | .ipFrag | .ipSum | .icmpCode | .icmpSum | .icmpId | .icmpSeq => 0) ∧
      fieldRead e.pkt .icmpSum = 0x0000F7FF
end

