-- ==== Sys2Proof/Laws/State.lean ====
section
/-! SUPPORT. One lemma for each field and each update of the engine and of the state, all true by `rfl`, so that no later proof
unfolds a record update. -/

namespace Sys2Proof.Machine

/-! ## The engine put back into the state -/

@[simp] theorem withEngine_engine (s : State) (e : Engine) : (s.withEngine e).engine = e := rfl
@[simp] theorem withEngine_pending (s : State) (e : Engine) : (s.withEngine e).pending = s.pending := rfl
@[simp] theorem withEngine_replies (s : State) (e : Engine) : (s.withEngine e).replies = s.replies := rfl
@[simp] theorem withEngine_withEngine (s : State) (e e' : Engine) : (s.withEngine e).withEngine e' = s.withEngine e' := rfl
@[simp] theorem withEngine_self (s : State) : s.withEngine s.engine = s := rfl

/-! ## Results -/

@[simp] theorem setResult_data (r : Half) (e : Engine) : (setResult r e).data = e.data := rfl
@[simp] theorem setResult_src (r : Half) (e : Engine) : (setResult r e).src = e.src := rfl
@[simp] theorem setResult_dst (r : Half) (e : Engine) : (setResult r e).dst = e.dst := rfl
@[simp] theorem setResult_pid (r : Half) (e : Engine) : (setResult r e).pid = e.pid := rfl
@[simp] theorem setResult_csum (r : Half) (e : Engine) : (setResult r e).csum = r.zeroExtend 32 := rfl
@[simp] theorem setResult_acc (r : Half) (e : Engine) : (setResult r e).acc = e.acc := rfl
@[simp] theorem setResult_cnt (r : Half) (e : Engine) : (setResult r e).cnt = e.cnt := rfl
@[simp] theorem setResult_pend (r : Half) (e : Engine) : (setResult r e).pend = e.pend := rfl
@[simp] theorem setResult_zero (r : Half) (e : Engine) : (setResult r e).zero = decide (r = 0) := rfl
@[simp] theorem setResult_ovf (r : Half) (e : Engine) : (setResult r e).ovf = e.ovf := rfl
@[simp] theorem setResult_err (r : Half) (e : Engine) : (setResult r e).err = e.err := rfl
@[simp] theorem setResult_ecode (r : Half) (e : Engine) : (setResult r e).ecode = e.ecode := rfl
@[simp] theorem setResult_fval (r : Half) (e : Engine) : (setResult r e).fval = e.fval := rfl
@[simp] theorem setResult_einfo (r : Half) (e : Engine) : (setResult r e).einfo = e.einfo := rfl
@[simp] theorem setResult_pkt (r : Half) (e : Engine) : (setResult r e).pkt = e.pkt := rfl

/-! ## Clearing -/

@[simp] theorem clearStream_data (e : Engine) : (clearStream e).data = e.data := rfl
@[simp] theorem clearStream_src (e : Engine) : (clearStream e).src = e.src := rfl
@[simp] theorem clearStream_dst (e : Engine) : (clearStream e).dst = e.dst := rfl
@[simp] theorem clearStream_pid (e : Engine) : (clearStream e).pid = e.pid := rfl
@[simp] theorem clearStream_csum (e : Engine) : (clearStream e).csum = e.csum := rfl
@[simp] theorem clearStream_acc (e : Engine) : (clearStream e).acc = 0 := rfl
@[simp] theorem clearStream_cnt (e : Engine) : (clearStream e).cnt = 0 := rfl
@[simp] theorem clearStream_pend (e : Engine) : (clearStream e).pend = 0 := rfl
@[simp] theorem clearStream_zero (e : Engine) : (clearStream e).zero = e.zero := rfl
@[simp] theorem clearStream_ovf (e : Engine) : (clearStream e).ovf = false := rfl
@[simp] theorem clearStream_err (e : Engine) : (clearStream e).err = e.err := rfl
@[simp] theorem clearStream_ecode (e : Engine) : (clearStream e).ecode = e.ecode := rfl
@[simp] theorem clearStream_fval (e : Engine) : (clearStream e).fval = e.fval := rfl
@[simp] theorem clearStream_einfo (e : Engine) : (clearStream e).einfo = e.einfo := rfl
@[simp] theorem clearStream_pkt (e : Engine) : (clearStream e).pkt = e.pkt := rfl
@[simp] theorem clearStream_odd (e : Engine) : (clearStream e).odd = false := by
  simp [Engine.odd]

@[simp] theorem clearError_data (e : Engine) : (clearError e).data = e.data := rfl
@[simp] theorem clearError_src (e : Engine) : (clearError e).src = e.src := rfl
@[simp] theorem clearError_dst (e : Engine) : (clearError e).dst = e.dst := rfl
@[simp] theorem clearError_pid (e : Engine) : (clearError e).pid = e.pid := rfl
@[simp] theorem clearError_csum (e : Engine) : (clearError e).csum = e.csum := rfl
@[simp] theorem clearError_acc (e : Engine) : (clearError e).acc = e.acc := rfl
@[simp] theorem clearError_cnt (e : Engine) : (clearError e).cnt = e.cnt := rfl
@[simp] theorem clearError_pend (e : Engine) : (clearError e).pend = e.pend := rfl
@[simp] theorem clearError_zero (e : Engine) : (clearError e).zero = e.zero := rfl
@[simp] theorem clearError_ovf (e : Engine) : (clearError e).ovf = e.ovf := rfl
@[simp] theorem clearError_err (e : Engine) : (clearError e).err = false := rfl
@[simp] theorem clearError_ecode (e : Engine) : (clearError e).ecode = 0 := rfl
@[simp] theorem clearError_fval (e : Engine) : (clearError e).fval = e.fval := rfl
@[simp] theorem clearError_einfo (e : Engine) : (clearError e).einfo = 0 := rfl
@[simp] theorem clearError_pkt (e : Engine) : (clearError e).pkt = e.pkt := rfl
@[simp] theorem clearError_odd (e : Engine) : (clearError e).odd = e.odd := rfl

@[simp] theorem clearOverflow_data (e : Engine) : (clearOverflow e).data = e.data := rfl
@[simp] theorem clearOverflow_src (e : Engine) : (clearOverflow e).src = e.src := rfl
@[simp] theorem clearOverflow_dst (e : Engine) : (clearOverflow e).dst = e.dst := rfl
@[simp] theorem clearOverflow_pid (e : Engine) : (clearOverflow e).pid = e.pid := rfl
@[simp] theorem clearOverflow_csum (e : Engine) : (clearOverflow e).csum = e.csum := rfl
@[simp] theorem clearOverflow_acc (e : Engine) : (clearOverflow e).acc = e.acc := rfl
@[simp] theorem clearOverflow_cnt (e : Engine) : (clearOverflow e).cnt = e.cnt := rfl
@[simp] theorem clearOverflow_pend (e : Engine) : (clearOverflow e).pend = e.pend := rfl
@[simp] theorem clearOverflow_zero (e : Engine) : (clearOverflow e).zero = e.zero := rfl
@[simp] theorem clearOverflow_ovf (e : Engine) : (clearOverflow e).ovf = false := rfl
@[simp] theorem clearOverflow_err (e : Engine) : (clearOverflow e).err = e.err := rfl
@[simp] theorem clearOverflow_ecode (e : Engine) : (clearOverflow e).ecode = e.ecode := rfl
@[simp] theorem clearOverflow_fval (e : Engine) : (clearOverflow e).fval = e.fval := rfl
@[simp] theorem clearOverflow_einfo (e : Engine) : (clearOverflow e).einfo = e.einfo := rfl
@[simp] theorem clearOverflow_pkt (e : Engine) : (clearOverflow e).pkt = e.pkt := rfl
@[simp] theorem clearOverflow_odd (e : Engine) : (clearOverflow e).odd = e.odd := rfl

/-! ## Raising an error: the two cases of spec/60_exceptions.md R204, then the fields it never touches -/

/-- The first error since `ERR` was cleared is recorded. -/
theorem raiseError_first (c : ErrorCode) (info : Word) (e : Engine) (h : e.err = false) :
    raiseError c info e = { e with err := true, ecode := c.bits, einfo := info } := by
  simp [raiseError, h]

/-- A later error changes nothing (spec/60_exceptions.md R207). -/
theorem raiseError_later (c : ErrorCode) (info : Word) (e : Engine) (h : e.err = true) : raiseError c info e = e := by
  cases e
  simp_all [raiseError]

@[simp] theorem raiseError_err (c : ErrorCode) (info : Word) (e : Engine) : (raiseError c info e).err = true := rfl

/-- All that raising an error can do: the state but for the error latch is the one before. -/
theorem raiseError_frame (c : ErrorCode) (info : Word) (e : Engine) :
    { raiseError c info e with err := e.err, ecode := e.ecode, einfo := e.einfo } = e := by
  cases e
  unfold raiseError
  split <;> rfl

@[simp] theorem raiseError_data (c : ErrorCode) (i : Word) (e : Engine) : (raiseError c i e).data = e.data := by
  unfold raiseError
  split <;> rfl
@[simp] theorem raiseError_src (c : ErrorCode) (i : Word) (e : Engine) : (raiseError c i e).src = e.src := by
  unfold raiseError
  split <;> rfl
@[simp] theorem raiseError_dst (c : ErrorCode) (i : Word) (e : Engine) : (raiseError c i e).dst = e.dst := by
  unfold raiseError
  split <;> rfl
@[simp] theorem raiseError_pid (c : ErrorCode) (i : Word) (e : Engine) : (raiseError c i e).pid = e.pid := by
  unfold raiseError
  split <;> rfl
@[simp] theorem raiseError_csum (c : ErrorCode) (i : Word) (e : Engine) : (raiseError c i e).csum = e.csum := by
  unfold raiseError
  split <;> rfl
@[simp] theorem raiseError_acc (c : ErrorCode) (i : Word) (e : Engine) : (raiseError c i e).acc = e.acc := by
  unfold raiseError
  split <;> rfl
@[simp] theorem raiseError_cnt (c : ErrorCode) (i : Word) (e : Engine) : (raiseError c i e).cnt = e.cnt := by
  unfold raiseError
  split <;> rfl
@[simp] theorem raiseError_pend (c : ErrorCode) (i : Word) (e : Engine) : (raiseError c i e).pend = e.pend := by
  unfold raiseError
  split <;> rfl
@[simp] theorem raiseError_zero (c : ErrorCode) (i : Word) (e : Engine) : (raiseError c i e).zero = e.zero := by
  unfold raiseError
  split <;> rfl
@[simp] theorem raiseError_ovf (c : ErrorCode) (i : Word) (e : Engine) : (raiseError c i e).ovf = e.ovf := by
  unfold raiseError
  split <;> rfl
@[simp] theorem raiseError_fval (c : ErrorCode) (i : Word) (e : Engine) : (raiseError c i e).fval = e.fval := by
  unfold raiseError
  split <;> rfl
@[simp] theorem raiseError_pkt (c : ErrorCode) (i : Word) (e : Engine) : (raiseError c i e).pkt = e.pkt := by
  unfold raiseError
  split <;> rfl
@[simp] theorem raiseError_odd (c : ErrorCode) (i : Word) (e : Engine) : (raiseError c i e).odd = e.odd := by
  simp [Engine.odd]

end Sys2Proof.Machine
end

