-- ==== Sys2Proof/Laws/Checksum.lean ====
section
/-! SUPPORT. The checksum function in numbers, and the streaming state byte by byte. -/

namespace Sys2Proof.Machine

/-! ## Folding and summing -/

/-- `Fold16` in numbers (spec/40_checksum_engine.md R101). -/
theorem fold16_toNat (v : Word) :
    (fold16 v).toNat = (v.toNat / 2 ^ 16 + v.toNat % 2 ^ 16) / 2 ^ 16 + (v.toNat / 2 ^ 16 + v.toNat % 2 ^ 16) % 2 ^ 16 := by
  have := v.isLt
  simp only [fold16, toNat_field, BitVec.toNat_ofNat, pow_zero, Nat.div_one]
  have h : v.toNat / 2 ^ 16 % 2 ^ 16 = v.toNat / 2 ^ 16 := Nat.mod_eq_of_lt (by omega)
  rw [h]
  omega

/-- The folded value of a nonzero word is its residue modulo 65535 in the range 1 to 65535. -/
theorem fold16_residue (v : Word) (h : v ≠ 0) : (fold16 v).toNat = (v.toNat - 1) % 65535 + 1 := by
  have h0 : v.toNat ≠ 0 := fun hc => h (BitVec.eq_of_toNat_eq (by simpa using hc))
  have := v.isLt
  rw [fold16_toNat]
  omega

theorem toNat_word_of_bytes (b c : Byte) : (b ++ c : Half).toNat = 256 * b.toNat + c.toNat := by
  rw [toNat_append_eq]
  omega

theorem toNat_wide (h : Half) : (h.zeroExtend 32).toNat = h.toNat := by
  have := h.isLt
  simp only [BitVec.truncate_eq_setWidth, BitVec.toNat_setWidth]
  omega

/-- The accumulation loop is the exact sum modulo 2^32 (spec/40_checksum_engine.md R100). -/
theorem sumWords_toNat (acc : Word) (bs : List Byte) : (sumWords acc bs).toNat = (acc.toNat + wordSum bs) % 2 ^ 32 := by
  induction acc, bs using sumWords.induct with
  | case1 acc => simp [sumWords, wordSum]; omega
  | case2 acc b =>
    simp only [sumWords, wordSum, BitVec.toNat_add, toNat_wide, toNat_word_of_bytes]
    simp
  | case3 acc b c bs ih =>
    simp only [sumWords, wordSum, ih, BitVec.toNat_add, toNat_wide, toNat_word_of_bytes]
    omega

/-- The sum of `n` bytes is at most 65535 a word. -/
theorem wordSum_le (bs : List Byte) : wordSum bs ≤ 65535 * ((bs.length + 1) / 2) := by
  induction bs using wordSum.induct with
  | case1 => simp [wordSum]
  | case2 b =>
    have := b.isLt
    simp only [wordSum, List.length_cons, List.length_nil]
    omega
  | case3 b c bs ih =>
    have := b.isLt
    have := c.isLt
    simp only [wordSum, List.length_cons]
    omega

/-- Up to `SAFE_BYTES` bytes nothing wraps (spec/00_scope.md R5). -/
theorem sumWords_exact (bs : List Byte) (h : bs.length ≤ Config.safeBytes) : (sumWords 0 bs).toNat = wordSum bs := by
  have := wordSum_le bs
  simp only [Config.safeBytes] at h
  rw [sumWords_toNat]
  simp
  omega

/-- A word added first or last. -/
theorem sumWords_start (acc : Word) (bs : List Byte) : sumWords acc bs = acc + sumWords 0 bs := by
  apply BitVec.eq_of_toNat_eq
  rw [BitVec.toNat_add, sumWords_toNat, sumWords_toNat]
  simp

theorem toNat_complement (h : Half) : (~~~h).toNat = 65535 - h.toNat := by
  rw [BitVec.toNat_not]

/-! ## Streaming -/

/-- A byte that starts a word (spec/40_checksum_engine.md R104). -/
theorem feedByte_even (b : Byte) (e : Engine) (h : e.odd = false) :
    feedByte b e = { e with pend := b, cnt := e.cnt + 1 } := by
  simp [feedByte, h]

/-- A byte that completes a word (spec/40_checksum_engine.md R104). -/
theorem feedByte_odd (b : Byte) (e : Engine) (h : e.odd = true) :
    feedByte b e = { e with
      acc := BitVec.ofNat 32 (e.acc.toNat + (e.pend ++ b : Half).toNat), pend := 0,
      ovf := e.ovf || carriesOut (e.acc.toNat + (e.pend ++ b : Half).toNat), cnt := e.cnt + 1 } := by
  simp [feedByte, h]

@[simp] theorem feedByte_cnt (b : Byte) (e : Engine) : (feedByte b e).cnt = e.cnt + 1 := by
  cases h : e.odd
  · rw [feedByte_even b e h]
  · rw [feedByte_odd b e h]

/-- `ODD` is the parity of `CNT`. -/
theorem odd_eq (e : Engine) : e.odd = decide (e.cnt.toNat % 2 = 1) := by
  rw [Engine.odd, BitVec.getLsbD, Nat.testBit_zero]

@[simp] theorem feedByte_odd_flips (b : Byte) (e : Engine) : (feedByte b e).odd = !e.odd := by
  have := e.cnt.isLt
  have h1 : (e.cnt + 1).toNat = (e.cnt.toNat + 1) % 2 ^ 32 := BitVec.toNat_add _ _
  rw [odd_eq, odd_eq, feedByte_cnt, h1]
  by_cases h : e.cnt.toNat % 2 = 1
  · have h2 : ¬(e.cnt.toNat + 1) % 2 ^ 32 % 2 = 1 := by omega
    rw [decide_eq_true h, decide_eq_false h2]
    rfl
  · have h2 : (e.cnt.toNat + 1) % 2 ^ 32 % 2 = 1 := by omega
    rw [decide_eq_false h, decide_eq_true h2]
    rfl

/-! What feeding bytes never changes (spec/10_state.md R43). -/

@[simp] theorem feedByte_data (b : Byte) (e : Engine) : (feedByte b e).data = e.data := by
  unfold feedByte
  cases e.odd <;> rfl
@[simp] theorem feedByte_src (b : Byte) (e : Engine) : (feedByte b e).src = e.src := by
  unfold feedByte
  cases e.odd <;> rfl
@[simp] theorem feedByte_dst (b : Byte) (e : Engine) : (feedByte b e).dst = e.dst := by
  unfold feedByte
  cases e.odd <;> rfl
@[simp] theorem feedByte_pid (b : Byte) (e : Engine) : (feedByte b e).pid = e.pid := by
  unfold feedByte
  cases e.odd <;> rfl
@[simp] theorem feedByte_csum (b : Byte) (e : Engine) : (feedByte b e).csum = e.csum := by
  unfold feedByte
  cases e.odd <;> rfl
@[simp] theorem feedByte_zero (b : Byte) (e : Engine) : (feedByte b e).zero = e.zero := by
  unfold feedByte
  cases e.odd <;> rfl
@[simp] theorem feedByte_err (b : Byte) (e : Engine) : (feedByte b e).err = e.err := by
  unfold feedByte
  cases e.odd <;> rfl
@[simp] theorem feedByte_ecode (b : Byte) (e : Engine) : (feedByte b e).ecode = e.ecode := by
  unfold feedByte
  cases e.odd <;> rfl
@[simp] theorem feedByte_fval (b : Byte) (e : Engine) : (feedByte b e).fval = e.fval := by
  unfold feedByte
  cases e.odd <;> rfl
@[simp] theorem feedByte_einfo (b : Byte) (e : Engine) : (feedByte b e).einfo = e.einfo := by
  unfold feedByte
  cases e.odd <;> rfl
@[simp] theorem feedByte_pkt (b : Byte) (e : Engine) : (feedByte b e).pkt = e.pkt := by
  unfold feedByte
  cases e.odd <;> rfl

@[simp] theorem feedBytes_nil (e : Engine) : feedBytes [] e = e := rfl

@[simp] theorem feedBytes_cons (b : Byte) (bs : List Byte) (e : Engine) :
    feedBytes (b :: bs) e = feedBytes bs (feedByte b e) := rfl

@[simp] theorem feedBytes_data (bs : List Byte) (e : Engine) : (feedBytes bs e).data = e.data := by
  induction bs generalizing e with
  | nil => rfl
  | cons b bs ih => rw [feedBytes_cons, ih, feedByte_data]
@[simp] theorem feedBytes_src (bs : List Byte) (e : Engine) : (feedBytes bs e).src = e.src := by
  induction bs generalizing e with
  | nil => rfl
  | cons b bs ih => rw [feedBytes_cons, ih, feedByte_src]
@[simp] theorem feedBytes_dst (bs : List Byte) (e : Engine) : (feedBytes bs e).dst = e.dst := by
  induction bs generalizing e with
  | nil => rfl
  | cons b bs ih => rw [feedBytes_cons, ih, feedByte_dst]
@[simp] theorem feedBytes_pid (bs : List Byte) (e : Engine) : (feedBytes bs e).pid = e.pid := by
  induction bs generalizing e with
  | nil => rfl
  | cons b bs ih => rw [feedBytes_cons, ih, feedByte_pid]
@[simp] theorem feedBytes_csum (bs : List Byte) (e : Engine) : (feedBytes bs e).csum = e.csum := by
  induction bs generalizing e with
  | nil => rfl
  | cons b bs ih => rw [feedBytes_cons, ih, feedByte_csum]
@[simp] theorem feedBytes_zero (bs : List Byte) (e : Engine) : (feedBytes bs e).zero = e.zero := by
  induction bs generalizing e with
  | nil => rfl
  | cons b bs ih => rw [feedBytes_cons, ih, feedByte_zero]
@[simp] theorem feedBytes_err (bs : List Byte) (e : Engine) : (feedBytes bs e).err = e.err := by
  induction bs generalizing e with
  | nil => rfl
  | cons b bs ih => rw [feedBytes_cons, ih, feedByte_err]
@[simp] theorem feedBytes_ecode (bs : List Byte) (e : Engine) : (feedBytes bs e).ecode = e.ecode := by
  induction bs generalizing e with
  | nil => rfl
  | cons b bs ih => rw [feedBytes_cons, ih, feedByte_ecode]
@[simp] theorem feedBytes_fval (bs : List Byte) (e : Engine) : (feedBytes bs e).fval = e.fval := by
  induction bs generalizing e with
  | nil => rfl
  | cons b bs ih => rw [feedBytes_cons, ih, feedByte_fval]
@[simp] theorem feedBytes_einfo (bs : List Byte) (e : Engine) : (feedBytes bs e).einfo = e.einfo := by
  induction bs generalizing e with
  | nil => rfl
  | cons b bs ih => rw [feedBytes_cons, ih, feedByte_einfo]
@[simp] theorem feedBytes_pkt (bs : List Byte) (e : Engine) : (feedBytes bs e).pkt = e.pkt := by
  induction bs generalizing e with
  | nil => rfl
  | cons b bs ih => rw [feedBytes_cons, ih, feedByte_pkt]

/-- All that feeding bytes can change is the streaming state (spec/10_state.md R43). -/
theorem feedBytes_frame (bs : List Byte) (e : Engine) :
    { feedBytes bs e with acc := e.acc, cnt := e.cnt, pend := e.pend, ovf := e.ovf } = e := by
  ext <;> simp

/-- FINAL as one update (spec/40_checksum_engine.md R110). -/
theorem finish_frame (e : Engine) : { finish e with csum := e.csum, zero := e.zero, ovf := e.ovf } = e := rfl

end Sys2Proof.Machine
end

