-- ==== Sys2Proof/Laws/Decode.lean ====
section
/-! SUPPORT. The command word as its four fields, and what a successful decoding says. -/

namespace Sys2Proof.Machine

/-- The four fields of a word put together from them (spec/30_encoding.md R80). -/
theorem fields_of_append (r b a op : Byte) :
    wordOp (r ++ (b ++ (a ++ op))) = op.toNat ∧ wordA (r ++ (b ++ (a ++ op))) = a.toNat ∧
    wordB (r ++ (b ++ (a ++ op))) = b.toNat ∧ wordRsv (r ++ (b ++ (a ++ op))) = r.toNat := by
  have := r.isLt
  have := b.isLt
  have := a.isLt
  have := op.isLt
  simp only [wordOp, wordA, wordB, wordRsv, toNat_field, toNat_append_eq]
  omega

/-- A word is its four fields. -/
theorem word_eq_fields (w : Word) :
    w = BitVec.ofNat 8 (wordRsv w) ++ (BitVec.ofNat 8 (wordB w) ++ (BitVec.ofNat 8 (wordA w) ++ BitVec.ofNat 8 (wordOp w))) := by
  apply BitVec.eq_of_toNat_eq
  have := w.isLt
  simp only [wordOp, wordA, wordB, wordRsv, toNat_field, toNat_append_eq, BitVec.toNat_ofNat]
  omega

theorem wordA_lt (w : Word) : wordA w < 256 := (w.extractLsb' 8 8).isLt

theorem wordB_lt (w : Word) : wordB w < 256 := (w.extractLsb' 16 8).isLt

/-- All that a successful decoding says of a word's fields (spec/30_encoding.md R84). -/
theorem decode_ok {w : Word} {i : Instr} (h : decode w = .ok i) :
    instrOfOp (wordOp w) (wordA w) (wordB w) = some i ∧ wordRsv w = 0 ∧
    (usesA (wordOp w) = false → wordA w = 0) ∧ (usesB (wordOp w) = false → wordB w = 0) := by
  unfold decode at h
  split at h
  · cases h
  · next j hj =>
    split at h
    · cases h
    · next hn =>
      cases h
      push Not at hn
      exact ⟨hj, hn.1, hn.2.1, hn.2.2⟩

/-- The field table read in both directions (spec/30_encoding.md R90). -/
theorem fieldOfId_iff (fid : Nat) (f : Field) : fieldOfId fid = some f ↔ fieldId f = fid := by
  constructor
  · intro h
    unfold fieldOfId at h
    split at h <;> first | (cases h; rfl) | cases h
  · rintro rfl
    cases f <;> rfl

/-- The ids above 15 are reserved (spec/30_encoding.md R91). -/
theorem fieldOfId_none (fid : Nat) : fieldOfId fid = none ↔ 15 < fid := by
  constructor
  · intro h
    by_contra hn
    have : fid ≤ 15 := by omega
    interval_cases fid <;> cases h
  · intro h
    unfold fieldOfId
    split <;> first | rfl | omega

end Sys2Proof.Machine
end

