-- ==== Sys2Proof/Laws/Memory.lean ====
section
/-! SUPPORT. The packet buffer: read after write, and every operation keeps the canonical form. -/

namespace Sys2Proof.Machine

/-! ## Read after write -/

theorem read_erase_same (m : Memory) (k : Nat) : (m.erase k).read k = unlistedByte := by
  induction m with
  | nil => rfl
  | cons c m ih =>
    obtain ⟨a, v⟩ := c
    by_cases h : a = k
    · simpa [Memory.erase, h] using ih
    · simpa [Memory.erase, h, Memory.read] using ih

theorem read_erase_other (m : Memory) {k j : Nat} (h : j ≠ k) : (m.erase k).read j = m.read j := by
  induction m with
  | nil => rfl
  | cons c m ih =>
    obtain ⟨a, v⟩ := c
    by_cases ha : a = k
    · subst ha
      simpa [Memory.erase, Memory.read, h.symm] using ih
    · simp only [Memory.erase, ne_eq, ha, not_false_eq_true, decide_true, List.filter_cons_of_pos, Memory.read] at ih ⊢
      rw [ih]

theorem read_insert_other (m : Memory) {k j : Nat} (v : Byte) (h : j ≠ k) : (Memory.insert k v m).read j = m.read j := by
  induction m with
  | nil => simp [Memory.insert, Memory.read, h.symm]
  | cons c m ih =>
    obtain ⟨a, u⟩ := c
    by_cases hk : k < a
    · simp [Memory.insert, hk, Memory.read, h.symm]
    · simp [Memory.insert, hk, Memory.read, ih]

theorem read_insert_same (m : Memory) (k : Nat) (v : Byte) (h : ∀ c ∈ m, c.1 ≠ k) :
    (Memory.insert k v m).read k = v := by
  induction m with
  | nil => simp [Memory.insert, Memory.read]
  | cons c m ih =>
    obtain ⟨a, u⟩ := c
    have ha : a ≠ k := h (a, u) (by simp)
    by_cases hk : k < a
    · simp [Memory.insert, hk, Memory.read]
    · simp [Memory.insert, hk, Memory.read, ha, ih fun c hc => h c (by simp [hc])]

theorem erase_ne (m : Memory) (k : Nat) : ∀ c ∈ m.erase k, c.1 ≠ k := by
  intro c hc
  simpa [Memory.erase] using (List.mem_filter.mp hc).2

/-- A read after a write to the same byte gives the value written. -/
@[simp] theorem read_write_same (m : Memory) (k : Nat) (v : Byte) : (m.write k v).read k = v := by
  unfold Memory.write
  split
  · next h => rw [read_erase_same, h]
  · exact read_insert_same _ _ _ (erase_ne m k)

/-- A write leaves every other byte alone. -/
theorem read_write_other (m : Memory) {k j : Nat} (v : Byte) (h : j ≠ k) : (m.write k v).read j = m.read j := by
  unfold Memory.write
  split
  · exact read_erase_other m h
  · rw [read_insert_other _ _ h, read_erase_other m h]

/-- One byte after a write, whichever it is. -/
theorem read_write (m : Memory) (k j : Nat) (v : Byte) : (m.write k v).read j = if j = k then v else m.read j := by
  split
  · next h => rw [h, read_write_same]
  · next h => exact read_write_other m v h

/-- One byte after a sequence of bytes was written. -/
theorem read_writeBytes (bs : List Byte) (m : Memory) (k j : Nat) :
    (m.writeBytes k bs).read j = if h : k ≤ j ∧ j - k < bs.length then bs[j - k]'h.2 else m.read j := by
  induction bs generalizing m k with
  | nil => simp [Memory.writeBytes]
  | cons b bs ih =>
    rw [Memory.writeBytes, ih, read_write]
    by_cases hj : j = k
    · subst hj
      simp
    · by_cases hk : k + 1 ≤ j ∧ j - (k + 1) < bs.length
      · have h2 : k ≤ j ∧ j - k < (b :: bs).length := by
          constructor
          · omega
          · simp only [List.length_cons]; omega
        have h3 : j - k = (j - (k + 1)) + 1 := by omega
        rw [dif_pos hk, dif_pos h2]
        simp only [h3, List.getElem_cons_succ]
      · have h2 : ¬(k ≤ j ∧ j - k < (b :: bs).length) := by
          intro h
          apply hk
          simp only [List.length_cons] at h
          omega
        rw [dif_neg hk, dif_neg h2, if_neg hj]

/-- Writing bytes leaves every byte outside them alone. -/
theorem read_writeBytes_outside (bs : List Byte) (m : Memory) (k j : Nat) (h : j < k ∨ k + bs.length ≤ j) :
    (m.writeBytes k bs).read j = m.read j := by
  rw [read_writeBytes, dif_neg]
  omega

@[simp] theorem length_bytes (v : Value) : v.bytes.length = v.width.bytes := by cases v <;> rfl

/-- `MemWrite` leaves every byte outside the written ones alone. -/
theorem read_memWrite_outside (m : Memory) (k j : Nat) (v : Value) (h : j < k ∨ k + v.width.bytes ≤ j) :
    (memWrite m k v).read j = m.read j :=
  read_writeBytes_outside _ _ _ _ (by simpa using h)

theorem read_memWrite_byte (m : Memory) (k j : Nat) (v : Byte) :
    (memWrite m k (.byte v)).read j = if j = k then v else m.read j := by
  simp [memWrite, Value.bytes, Memory.writeBytes, read_write]

theorem read_memWrite_half (m : Memory) (k j : Nat) (v : Half) :
    (memWrite m k (.half v)).read j =
      if j = k + 1 then v.extractLsb' 0 8 else if j = k then v.extractLsb' 8 8 else m.read j := by
  simp only [memWrite, Value.bytes, halfBytes, Memory.writeBytes, read_write]

theorem read_memWrite_word (m : Memory) (k j : Nat) (v : Word) :
    (memWrite m k (.word v)).read j =
      if j = k + 3 then v.extractLsb' 0 8 else if j = k + 2 then v.extractLsb' 8 8
      else if j = k + 1 then v.extractLsb' 16 8 else if j = k then v.extractLsb' 24 8 else m.read j := by
  simp only [memWrite, Value.bytes, wordBytes, Memory.writeBytes, read_write]

/-! ## The canonical form -/

theorem wf_iff (m : Memory) :
    m.wf = true ↔ m.Pairwise (fun c d => c.1 < d.1) ∧ ∀ c ∈ m, c.1 < Config.pktLen ∧ c.2 ≠ unlistedByte := by
  simp [Memory.wf]

theorem mem_insert {k : Nat} {v : Byte} {m : Memory} {c : Host.Cell} :
    c ∈ Memory.insert k v m ↔ c = (k, v) ∨ c ∈ m := by
  induction m with
  | nil => simp [Memory.insert]
  | cons d m ih =>
    obtain ⟨a, u⟩ := d
    by_cases h : k < a
    · simp [Memory.insert, h]
    · simp only [Memory.insert, h, if_false, List.mem_cons, ih]
      tauto

theorem pairwise_insert {k : Nat} {v : Byte} {m : Memory} (hm : m.Pairwise fun c d => c.1 < d.1)
    (hk : ∀ c ∈ m, c.1 ≠ k) : (Memory.insert k v m).Pairwise fun c d => c.1 < d.1 := by
  induction m with
  | nil => simp [Memory.insert]
  | cons d m ih =>
    obtain ⟨a, u⟩ := d
    obtain ⟨h1, h2⟩ := List.pairwise_cons.mp hm
    by_cases h : k < a
    · simp only [Memory.insert, h, if_true]
      refine List.pairwise_cons.mpr ⟨fun c hc => ?_, hm⟩
      rcases List.mem_cons.mp hc with rfl | hc
      · exact h
      · exact lt_trans h (h1 c hc)
    · simp only [Memory.insert, h, if_false]
      refine List.pairwise_cons.mpr ⟨fun c hc => ?_, ih h2 fun c hc => hk c (by simp [hc])⟩
      rcases mem_insert.mp hc with rfl | hc
      · have := hk (a, u) (by simp)
        simp only at this ⊢
        omega
      · exact h1 c hc

/-- A write inside the buffer keeps the canonical form. -/
theorem wf_write {m : Memory} {k : Nat} (v : Byte) (hm : m.wf = true) (hk : k < Config.pktLen) : (m.write k v).wf = true := by
  rw [wf_iff] at hm ⊢
  have he : (m.erase k).Pairwise fun c d => c.1 < d.1 := hm.1.filter _
  have hs : ∀ c ∈ m.erase k, c.1 < Config.pktLen ∧ c.2 ≠ unlistedByte := fun c hc => hm.2 c (List.mem_filter.mp hc).1
  unfold Memory.write
  split
  · exact ⟨he, hs⟩
  · next hv =>
    refine ⟨pairwise_insert he (erase_ne m k), fun c hc => ?_⟩
    rcases mem_insert.mp hc with rfl | hc
    · exact ⟨hk, hv⟩
    · exact hs c hc

/-- Bytes written inside the buffer keep the canonical form. -/
theorem wf_writeBytes {bs : List Byte} {m : Memory} {k : Nat} (hm : m.wf = true) (hk : k + bs.length ≤ Config.pktLen) :
    (m.writeBytes k bs).wf = true := by
  induction bs generalizing m k with
  | nil => exact hm
  | cons b bs ih =>
    simp only [List.length_cons] at hk
    exact ih (wf_write b hm (by omega)) (by omega)

/-- `MemWrite` inside the buffer keeps the canonical form. -/
theorem wf_memWrite {m : Memory} {k : Nat} {v : Value} (hm : m.wf = true) (hk : k + v.width.bytes ≤ Config.pktLen) :
    (memWrite m k v).wf = true :=
  wf_writeBytes hm (by simpa using hk)

/-- PKTZ's writes keep the canonical form. -/
theorem wf_zeroBuffer {m : Memory} (hm : m.wf = true) : (zeroBuffer m).wf = true :=
  wf_writeBytes hm (by simp)

/-- BUILD's writes keep the canonical form. -/
theorem wf_buildHeaders {m : Memory} (src dst pid : Word) (hm : m.wf = true) : (buildHeaders src dst pid m).wf = true := by
  unfold buildHeaders
  repeat' apply wf_memWrite
  all_goals first | exact hm | simp [Value.width, Width.bytes, Config.pktLen, Config.ipHlen, Config.icmpHlen, Config.payloadLen]

/-- Every field lies inside the buffer (spec/30_encoding.md R90). -/
theorem fieldWindow (f : Field) (v : Word) :
    fieldAt f + (valueOfWord (fieldBytes f) v).width.bytes ≤ Config.pktLen := by
  have h : ∀ n v, (valueOfWord n v).width = n := by intro n v; cases n <;> rfl
  rw [h]
  cases f <;> decide

/-- A field's write keeps the canonical form. -/
theorem wf_fieldWrite {m : Memory} (f : Field) (v : Word) (hm : m.wf = true) : (fieldWrite m f v).wf = true := by
  cases f <;> first | exact wf_write _ hm (by decide) | exact wf_memWrite hm (fieldWindow _ _)

/-- The reset memory has the canonical form. -/
theorem wf_reset : State.reset.engine.pkt.wf = true := by decide

/-- Two canonical buffers with the same bytes are the same data. -/
theorem wf_ext {m n : Memory} (hm : m.wf = true) (hn : n.wf = true) (h : ∀ k, m.read k = n.read k) : m = n := by
  rw [wf_iff] at hm hn
  induction m generalizing n with
  | nil =>
    cases n with
    | nil => rfl
    | cons d n =>
      obtain ⟨a, u⟩ := d
      have := h a
      simp only [Memory.read, if_true] at this
      exact absurd this.symm (hn.2 (a, u) (by simp)).2
  | cons c m ih =>
    obtain ⟨a, u⟩ := c
    have hu := (hm.2 (a, u) (by simp)).2
    have below : ∀ {l : Memory} {j : Nat}, (∀ c ∈ l, j < c.1) → l.read j = unlistedByte := by
      intro l j hl
      induction l with
      | nil => rfl
      | cons d l ihl =>
        obtain ⟨b, w⟩ := d
        have hb : j < b := hl (b, w) (by simp)
        have : b ≠ j := by omega
        simp only [Memory.read, this, if_false]
        exact ihl fun c hc => hl c (by simp [hc])
    cases n with
    | nil =>
      have := h a
      simp only [Memory.read, if_true] at this
      exact absurd this hu
    | cons d n =>
      obtain ⟨b, w⟩ := d
      have hw := (hn.2 (b, w) (by simp)).2
      obtain ⟨hm1, hm2⟩ := List.pairwise_cons.mp hm.1
      obtain ⟨hn1, hn2⟩ := List.pairwise_cons.mp hn.1
      have hab : a = b := by
        rcases lt_trichotomy a b with hlt | heq | hgt
        · have e := h a
          have : Memory.read ((b, w) :: n) a = unlistedByte := below (by
            intro c hc
            rcases List.mem_cons.mp hc with rfl | hc
            · exact hlt
            · exact lt_trans hlt (hn1 c hc))
          rw [this] at e
          simp only [Memory.read, if_true] at e
          exact absurd e hu
        · exact heq
        · have e := h b
          have : Memory.read ((a, u) :: m) b = unlistedByte := below (by
            intro c hc
            rcases List.mem_cons.mp hc with rfl | hc
            · exact hgt
            · exact lt_trans hgt (hm1 c hc))
          rw [this] at e
          simp only [Memory.read, if_true] at e
          exact absurd e.symm hw
      subst hab
      have huw : u = w := by
        have e := h a
        simpa only [Memory.read, if_true] using e
      subst huw
      rw [ih (n := n)]
      · exact ⟨hm2, fun c hc => hm.2 c (by simp [hc])⟩
      · exact ⟨hn2, fun c hc => hn.2 c (by simp [hc])⟩
      · intro k
        by_cases hk : a = k
        · subst hk
          rw [below fun c hc => hm1 c hc, below fun c hc => hn1 c hc]
        · have e := h k
          simpa only [Memory.read, hk, if_false] using e

end Sys2Proof.Machine
end

