-- ==== Sys2Proof/Laws/Port.lean ====
section
/-! SUPPORT. The port: one lemma for each thing an access can be, and all that an event can do to the host's side. -/

namespace Sys2Proof.Machine

/-- A step of a state in which an event waits is that event. -/
theorem step_waiting (s : State) (ev : PortEvent) : step (s.waiting ev) = performEvent ev s := rfl

theorem perform_write (s : State) (agent : Nat) (off : Offset) (v : Value) :
    performEvent (.access agent (.write off v)) s = hostWrite off v s := rfl

theorem perform_read (s : State) (agent : Nat) (off : Offset) (n : Width) :
    performEvent (.access agent (.read n off)) s =
      .next ((s.replied agent (hostRead off n s.engine).1).withEngine (hostRead off n s.engine).2) := rfl

@[simp] theorem replied_engine (s : State) (agent : Nat) (v : Value) : (s.replied agent v).engine = s.engine := rfl

/-! ## Which access an offset and a width are -/

theorem regAt_regOffset (r : Reg) : regAt .word (regOffset r) = some r := by cases r <;> rfl

/-- An access reaches a register exactly as spec/20_memory.md R52 says. -/
theorem regAt_isSome (n : Width) (off : Offset) :
    (regAt n off).isSome = true ↔ n = .word ∧ off.val % 4 = 0 ∧ off.val ≤ 0x2C := by
  cases n <;> revert off <;> decide

theorem regAt_some {n : Width} {off : Offset} {r : Reg} (h : regAt n off = some r) : n = .word ∧ off = regOffset r := by
  cases n
  · cases h
  · cases h
  · refine ⟨rfl, ?_⟩
    revert h
    revert r off
    intro off r
    cases r <;> revert off <;> decide

/-- No register stands in the window. -/
theorem regAt_window {n : Width} {off : Offset} (h : 0x40 ≤ off.val) : regAt n off = none := by
  cases n <;> revert off <;> decide

theorem windowIndex_some {n : Width} {off : Offset}
    (h : 0x40 ≤ off.val ∧ (off.val - 0x40) % n.bytes = 0 ∧ (off.val - 0x40) + n.bytes ≤ 28) :
    windowIndex n off = some (off.val - 0x40) := if_pos h

theorem windowIndex_none {n : Width} {off : Offset}
    (h : ¬(0x40 ≤ off.val ∧ (off.val - 0x40) % n.bytes = 0 ∧ (off.val - 0x40) + n.bytes ≤ 28)) :
    windowIndex n off = none := if_neg h

/-- A window access lies inside the buffer. -/
theorem windowIndex_bound {n : Width} {off : Offset} {k : Nat} (h : windowIndex n off = some k) :
    k + n.bytes ≤ Config.pktLen := by
  unfold windowIndex at h
  split at h
  · next hc =>
    cases h
    exact hc.2.2
  · cases h

/-! ## Reads and writes -/

theorem hostRead_reg {n : Width} {off : Offset} {r : Reg} (e : Engine) (h : regAt n off = some r) :
    hostRead off n e = (.word (e.readReg r), e) := by
  simp [hostRead, h]

theorem hostRead_window {n : Width} {off : Offset} {k : Nat} (e : Engine) (h : regAt n off = none)
    (hw : windowIndex n off = some k) : hostRead off n e = (memRead e.pkt k n, e) := by
  simp [hostRead, h, hw]

theorem hostRead_bad {n : Width} {off : Offset} (e : Engine) (h : regAt n off = none) (hw : windowIndex n off = none) :
    hostRead off n e = (Value.zeroOf n, badAccess false n off e) := by
  simp [hostRead, h, hw]

/-- A read made again returns the same value: a legal one changes nothing, and a bad one returns 0 (spec/20_memory.md R58, R65). -/
theorem hostRead_again (off : Offset) (n : Width) (e : Engine) :
    (hostRead off n (hostRead off n e).2).1 = (hostRead off n e).1 := by
  rcases hr : regAt n off with _ | r
  · rcases hk : windowIndex n off with _ | k
    · rw [hostRead_bad _ hr hk, hostRead_bad _ hr hk]
    · rw [hostRead_window _ hr hk, hostRead_window _ hr hk]
  · rw [hostRead_reg _ hr, hostRead_reg _ hr]

/-- All that a read can do to the engine (spec/20_memory.md R65). -/
theorem hostRead_engine (off : Offset) (n : Width) (e : Engine) :
    (hostRead off n e).2 = e ∨ (hostRead off n e).2 = badAccess false n off e := by
  unfold hostRead
  split
  · exact .inl rfl
  · split
    · exact .inl rfl
    · exact .inr rfl

theorem hostWrite_reg (r : Reg) (w : Word) (s : State) : hostWrite (regOffset r) (.word w) s = writeReg r w s := by
  cases r <;> rfl

theorem hostWrite_window {off : Offset} {v : Value} {k : Nat} (s : State) (h : regAt v.width off = none)
    (hw : windowIndex v.width off = some k) :
    hostWrite off v s = .next (s.withEngine { s.engine with pkt := memWrite s.engine.pkt k v }) := by
  simp [hostWrite, h, hw]

theorem hostWrite_bad {off : Offset} {v : Value} (s : State) (h : regAt v.width off = none)
    (hw : windowIndex v.width off = none) :
    hostWrite off v s = .next (s.withEngine (badAccess true v.width off s.engine)) := by
  simp [hostWrite, h, hw]

/-- All that a write can be: a 32-bit write to a register, a window write, or a bad access. -/
theorem hostWrite_cases (off : Offset) (v : Value) (s : State) :
    (∃ r w, off = regOffset r ∧ v = .word w ∧ hostWrite off v s = writeReg r w s) ∨
    (∃ k, regAt v.width off = none ∧ windowIndex v.width off = some k ∧
      hostWrite off v s = .next (s.withEngine { s.engine with pkt := memWrite s.engine.pkt k v })) ∨
    (regAt v.width off = none ∧ windowIndex v.width off = none ∧
      hostWrite off v s = .next (s.withEngine (badAccess true v.width off s.engine))) := by
  cases h : regAt v.width off with
  | some r =>
    obtain ⟨hn, ho⟩ := regAt_some h
    cases v with
    | byte => cases hn
    | half => cases hn
    | word w => exact .inl ⟨r, w, ho, rfl, by rw [ho, hostWrite_reg]⟩
  | none =>
    cases hw : windowIndex v.width off with
    | some k => exact .inr (.inl ⟨k, rfl, rfl, hostWrite_window s h hw⟩)
    | none => exact .inr (.inr ⟨rfl, rfl, hostWrite_bad s h hw⟩)

/-- A `STATUS` write, field by field (spec/20_memory.md R60). -/
theorem writeStatus_eq (v : Word) (e : Engine) :
    writeStatus v e = { e with
      ovf := e.ovf && !v.getLsbD 1, err := e.err && !v.getLsbD 3,
      ecode := if v.getLsbD 3 = true then 0 else e.ecode, einfo := if v.getLsbD 3 = true then 0 else e.einfo } := by
  cases e
  cases h1 : v.getLsbD 1 <;> cases h3 : v.getLsbD 3 <;>
    simp only [writeStatus, clearOverflow, clearError, h1, h3, if_true, if_false, Bool.false_eq_true, Bool.not_true,
      Bool.not_false, Bool.and_true, Bool.and_false]

/-! ## What no event touches -/

/-- A command answers a next state in which only the engine has changed. -/
theorem exec_next (i : Instr) (s : State) : ∃ e, exec i s = .next (s.withEngine e) := by
  cases i <;> exact ⟨_, rfl⟩

theorem execute_next (w : Word) (s : State) : ∃ e, execute w s = .next (s.withEngine e) := by
  unfold execute
  split
  · exact ⟨_, rfl⟩
  · exact exec_next _ _

theorem writeReg_next (r : Reg) (w : Word) (s : State) : ∃ e, writeReg r w s = .next (s.withEngine e) := by
  cases r <;> first | exact execute_next _ _ | exact ⟨_, rfl⟩

theorem hostWrite_next (off : Offset) (v : Value) (s : State) : ∃ e, hostWrite off v s = .next (s.withEngine e) := by
  rcases hostWrite_cases off v s with ⟨r, w, -, -, h⟩ | ⟨k, -, -, h⟩ | ⟨-, -, h⟩
  · exact h ▸ writeReg_next r w s
  · exact ⟨_, h⟩
  · exact ⟨_, h⟩

/-- No event touches what waits at the port. -/
theorem performEvent_pending {ev : PortEvent} {s t : State} (h : performEvent ev s = .next t) : t.pending = s.pending := by
  rcases ev with ⟨agent, ⟨n, off⟩ | ⟨off, v⟩⟩ | _
  · cases h
    rfl
  · obtain ⟨e, he⟩ := hostWrite_next off v s
    rw [perform_write, he] at h
    cases h
    rfl
  · cases h
    rfl

/-- All that an access can be: a read, a 32-bit write to a register, a window write, or a bad write. -/
theorem access_cases {agent : Nat} {a : Access} {s t : State} (h : performEvent (.access agent a) s = .next t) :
    (∃ n off, a = .read n off ∧
      t = (s.replied agent (hostRead off n s.engine).1).withEngine (hostRead off n s.engine).2) ∨
    (∃ r w, a = .write (regOffset r) (.word w) ∧ writeReg r w s = .next t) ∨
    (∃ off v k, a = .write off v ∧ regAt v.width off = none ∧ windowIndex v.width off = some k ∧
      t = s.withEngine { s.engine with pkt := memWrite s.engine.pkt k v }) ∨
    (∃ off v, a = .write off v ∧ regAt v.width off = none ∧ windowIndex v.width off = none ∧
      t = s.withEngine (badAccess true v.width off s.engine)) := by
  rcases a with ⟨n, off⟩ | ⟨off, v⟩
  · cases h
    exact .inl ⟨n, off, rfl, rfl⟩
  · rw [perform_write] at h
    rcases hostWrite_cases off v s with ⟨r, w, rfl, rfl, hw⟩ | ⟨k, hr, hk, hw⟩ | ⟨hr, hk, hw⟩
    · exact .inr (.inl ⟨r, w, rfl, hw ▸ h⟩)
    · rw [hw] at h
      cases h
      exact .inr (.inr (.inl ⟨off, v, k, rfl, hr, hk, rfl⟩))
    · rw [hw] at h
      cases h
      exact .inr (.inr (.inr ⟨off, v, rfl, hr, hk, rfl⟩))

/-- All that a 32-bit write to a register can do (spec/20_memory.md R60). -/
theorem writeReg_cases {r : Reg} {w : Word} {s t : State} (h : writeReg r w s = .next t) :
    (r = .cmd ∧ execute w s = .next t) ∨ (r = .status ∧ t = s.withEngine (writeStatus w s.engine)) ∨
    (r = .data ∧ t = s.withEngine { s.engine with data := w }) ∨
    (r = .src ∧ t = s.withEngine { s.engine with src := w }) ∨
    (r = .dst ∧ t = s.withEngine { s.engine with dst := w }) ∨
    (r = .pid ∧ t = s.withEngine { s.engine with pid := w }) ∨
    (r ∈ [Reg.csum, Reg.acc, Reg.cnt, Reg.wirelen, Reg.fval, Reg.einfo] ∧
      t = s.withEngine (badAccess true .word (regOffset r) s.engine)) := by
  cases r <;> first | exact .inl ⟨rfl, h⟩ | (cases h; simp)

/-- All that executing a word can do: the error the decoder answers, or the command (spec/30_encoding.md R84). -/
theorem execute_cases {w : Word} {s t : State} (h : execute w s = .next t) :
    (∃ c, decode w = .error c ∧ t = s.withEngine (raiseError (causeOf c) w s.engine)) ∨
    (∃ i, decode w = .ok i ∧ exec i s = .next t) := by
  unfold execute at h
  split at h
  · next c hc =>
    cases h
    exact .inl ⟨c, hc, rfl⟩
  · next i hi => exact .inr ⟨i, hi, h⟩

end Sys2Proof.Machine
end

