-- ==== Sys2Proof/Laws/Commands.lean ====
section
/-! SUPPORT. The commands: when one raises an error, and what each does otherwise. -/

namespace Sys2Proof.Machine

/-- All that a command can do to the error latch: raise the error of one of its own checks, with the command word as its record,
and change nothing else (spec/60_exceptions.md R202, R203), or leave the latch alone. -/
theorem exec_error_cases {i : Instr} {s t : State} (h : exec i s = .next t) :
    (∃ off len, i = .csumbuf off len ∧ 28 < off + len ∧ t = s.withEngine (raiseError .range (encode i) s.engine)) ∨
    (∃ fid, i = .fset fid ∧ 15 < fid ∧ t = s.withEngine (raiseError .badField (encode i) s.engine)) ∨
    (∃ fid f, i = .fset fid ∧ fieldOfId fid = some f ∧ fitsField f s.engine.data = false ∧
      t = s.withEngine (raiseError .value (encode i) s.engine)) ∨
    (∃ fid, i = .fget fid ∧ 15 < fid ∧ t = s.withEngine (raiseError .badField (encode i) s.engine)) ∨
    (t.engine.err = s.engine.err ∧ t.engine.ecode = s.engine.ecode ∧ t.engine.einfo = s.engine.einfo) := by
  cases i
  case csumbuf off len =>
    simp only [exec, execCsumbuf] at h
    split at h
    · next hr =>
      cases h
      exact .inl ⟨_, _, rfl, hr, rfl⟩
    · cases h
      simp
  case fset fid =>
    simp only [exec, execFset] at h
    cases hf : fieldOfId fid with
    | none =>
      rw [hf] at h
      cases h
      exact .inr (.inl ⟨_, rfl, (fieldOfId_none _).mp hf, rfl⟩)
    | some f =>
      rw [hf] at h
      simp only at h
      split at h
      · next hv =>
        cases h
        exact .inr (.inr (.inl ⟨_, f, rfl, hf, hv, rfl⟩))
      · cases h
        simp
  case fget fid =>
    simp only [exec, execFget] at h
    cases hf : fieldOfId fid with
    | none =>
      rw [hf] at h
      cases h
      exact .inr (.inr (.inr (.inl ⟨_, rfl, (fieldOfId_none _).mp hf, rfl⟩)))
    | some f =>
      rw [hf] at h
      cases h
      simp
  all_goals
    cases h
    simp [installChecksum, finish]

/-- CSUMBUF of a region inside the buffer (spec/40_checksum_engine.md R113). -/
theorem exec_csumbuf_inside {off len : Nat} (s : State) (h : off + len ≤ 28) :
    exec (.csumbuf off len) s = .next (s.withEngine (setResult (checksum (s.engine.pkt.region off len)) s.engine)) := by
  have hn : ¬Config.pktLen < off + len := by
    simp only [Config.pktLen, Config.ipHlen, Config.icmpHlen, Config.payloadLen]
    omega
  simp only [exec, execCsumbuf, hn, if_false]

/-- FSET of a field whose width the value fits (spec/42_header_builder.md R150). -/
theorem exec_fset_fits {fid : Nat} {f : Field} (s : State) (hf : fieldOfId fid = some f)
    (hv : fitsField f s.engine.data = true) :
    exec (.fset fid) s = .next (s.withEngine { s.engine with pkt := fieldWrite s.engine.pkt f s.engine.data }) := by
  simp [exec, execFset, hf, hv]

/-- FGET of a field (spec/42_header_builder.md R160). -/
theorem exec_fget_field {fid : Nat} {f : Field} (s : State) (hf : fieldOfId fid = some f) :
    exec (.fget fid) s = .next (s.withEngine { s.engine with fval := fieldRead s.engine.pkt f }) := by
  simp [exec, execFget, hf]

/-- One event of a run. -/
theorem runEvents_cons {ev : PortEvent} {es : List PortEvent} {s t : State} (h : performEvent ev s = .next t) :
    runEvents (ev :: es) s = runEvents es t := by
  simp [runEvents, h]

/-- A write to a register as an event. -/
theorem perform_regWrite (agent : Nat) (r : Reg) (v : Word) (s : State) :
    performEvent (regWrite agent r v) s = writeReg r v s := by
  rw [regWrite, perform_write, hostWrite_reg]

/-- A legal window write keeps the buffer's canonical form. -/
theorem wf_window {v : Value} {off : Offset} {k : Nat} {m : Memory} (h : windowIndex v.width off = some k)
    (hm : m.wf = true) : (memWrite m k v).wf = true :=
  wf_memWrite hm (windowIndex_bound h)

/-- Installing a checksum keeps the buffer's canonical form when the field lies inside it. -/
theorem wf_installChecksum {a off len : Nat} {e : Engine} (hm : e.pkt.wf = true) (ha : a + 2 ≤ 28) :
    (installChecksum a off len e).pkt.wf = true := by
  have hb : ∀ r : Half, a + (Value.half r).width.bytes ≤ Config.pktLen := fun _ => ha
  exact wf_memWrite (wf_memWrite hm (hb _)) (hb _)

/-! ## The buffer after the commands that write it -/

/-- Every byte of the buffer after PKTZ (spec/41_packet_assembler.md R130). -/
theorem read_zeroBuffer (m : Memory) (k : Nat) : (zeroBuffer m).read k = if k < 28 then 0x00 else m.read k := by
  have hl : (List.replicate Config.pktLen (0x00 : Byte)).length = 28 := by decide
  rw [zeroBuffer, read_writeBytes]
  by_cases hk : k < 28
  · rw [dif_pos ⟨Nat.zero_le k, by omega⟩, if_pos hk, List.getElem_replicate]
  · rw [dif_neg (by omega), if_neg hk]

/-- Every byte of the buffer after BUILD (spec/42_header_builder.md R141). -/
theorem read_buildHeaders (src dst pid : Word) (m : Memory) (k : Nat) :
    (buildHeaders src dst pid m).read k =
      if k = 0 then 0x45 else if k = 1 then 0x00 else if k = 2 then 0x00 else if k = 3 then 0x1C
      else if k = 4 then pid.extractLsb' 8 8 else if k = 5 then pid.extractLsb' 0 8
      else if k = 6 then m.read 6 else if k = 7 then m.read 7
      else if k = 8 then 0xFF else if k = 9 then 0x01 else if k = 10 then 0x00 else if k = 11 then 0x00
      else if k = 12 then src.extractLsb' 24 8 else if k = 13 then src.extractLsb' 16 8
      else if k = 14 then src.extractLsb' 8 8 else if k = 15 then src.extractLsb' 0 8
      else if k = 16 then dst.extractLsb' 24 8 else if k = 17 then dst.extractLsb' 16 8
      else if k = 18 then dst.extractLsb' 8 8 else if k = 19 then dst.extractLsb' 0 8
      else if k = 20 then 0x08 else if k < 28 then 0x00 else m.read k := by
  rcases Nat.lt_or_ge k 28 with h | h
  · interval_cases k <;> simp [buildHeaders, read_memWrite_byte, read_memWrite_half, read_memWrite_word] <;> decide
  · have hne : ∀ j, j < 28 → k ≠ j := fun j hj => by omega
    simp (disch := omega) [buildHeaders, read_memWrite_byte, read_memWrite_half, read_memWrite_word, hne]
    omega

/-- Every byte of the buffer after a checksum is installed: the field takes the checksum of the region with the field zeroed
(spec/43_checksum_install.md R170, R172). -/
theorem read_installChecksum (a off len : Nat) (e : Engine) (k : Nat) :
    (installChecksum a off len e).pkt.read k =
      let r := checksum ((memWrite e.pkt a (.half 0)).region off len)
      if k = a + 1 then r.extractLsb' 0 8 else if k = a then r.extractLsb' 8 8 else e.pkt.read k := by
  simp only [installChecksum, setResult_pkt, read_memWrite_half]
  split
  · rfl
  · split <;> simp [*]

theorem exec_insicmp (s : State) : exec .insicmp s = .next (s.withEngine (installChecksum 22 20 8 s.engine)) := rfl

theorem exec_insip (s : State) : exec .insip s = .next (s.withEngine (installChecksum 10 0 20 s.engine)) := rfl

theorem exec_pktz (s : State) : exec .pktz s = .next (s.withEngine { s.engine with pkt := zeroBuffer s.engine.pkt }) := rfl

theorem exec_build (s : State) :
    exec .build s = .next (s.withEngine
      { s.engine with pkt := buildHeaders s.engine.src s.engine.dst s.engine.pid s.engine.pkt }) := rfl

/-! ## The buffer after a field is written -/

theorem width_valueOfWord (n : Width) (v : Word) : (valueOfWord n v).width = n := by cases n <;> rfl

/-- A field's write leaves every byte outside the field (spec/42_header_builder.md R143). -/
theorem read_fieldWrite_outside (m : Memory) (f : Field) (v : Word) {k : Nat}
    (h : k < fieldAt f ∨ fieldAt f + (fieldBytes f).bytes ≤ k) : (fieldWrite m f v).read k = m.read k := by
  cases f
  case ipVer | ipIhl =>
    simp only [fieldAt, fieldBytes, Width.bytes] at h
    exact read_write_other _ _ (by omega)
  all_goals exact read_memWrite_outside _ _ _ _ (by rwa [width_valueOfWord])

/-- Writing the version leaves the other nibble of byte 0 (spec/42_header_builder.md R143). -/
theorem low_nibble_fieldWrite_ipVer (m : Memory) (v : Word) :
    ((fieldWrite m .ipVer v).read 0).extractLsb' 0 4 = (m.read 0).extractLsb' 0 4 := by
  apply BitVec.eq_of_toNat_eq
  simp only [fieldWrite, read_write_same, toNat_field, toNat_append_eq]
  omega

/-- Writing the header length leaves the other nibble of byte 0 (spec/42_header_builder.md R143). -/
theorem high_nibble_fieldWrite_ipIhl (m : Memory) (v : Word) :
    ((fieldWrite m .ipIhl v).read 0).extractLsb' 4 4 = (m.read 0).extractLsb' 4 4 := by
  apply BitVec.eq_of_toNat_eq
  simp only [fieldWrite, read_write_same, toNat_field, toNat_append_eq]
  omega

end Sys2Proof.Machine
end

