-- ==== Sys2Proof/Laws/PerInstr.lean ====
section
/-! SUPPORT. The family of laws WordLayout, one lemma for each command: where the encoder puts the opcode and the operands
(spec/30_encoding.md R80, R81, R82). -/

namespace Sys2Proof.Laws.WordLayout

/-- The word of a well-formed command: its opcode in [7:0], its operands in [15:8] and [23:16], zero in [31:24] and in the fields
it does not use, and the opcode map gives the command back from its fields. -/
def Statement (i : Instr) : Prop :=
  i.wellFormed = true →
    wordOp (encode i) = (opOf i).toNat ∧ wordA (encode i) = operandA i ∧ wordB (encode i) = operandB i ∧
    wordRsv (encode i) = 0 ∧ instrOfOp (opOf i).toNat (operandA i) (operandB i) = some i ∧
    (usesA (opOf i).toNat = false → operandA i = 0) ∧ (usesB (opOf i).toNat = false → operandB i = 0)

theorem nop : Statement .nop := by unfold Statement; decide
theorem clr : Statement .clr := by unfold Statement; decide
theorem feed8 : Statement .feed8 := by unfold Statement; decide
theorem feed16 : Statement .feed16 := by unfold Statement; decide
theorem feed32 : Statement .feed32 := by unfold Statement; decide
theorem final : Statement .final := by unfold Statement; decide
theorem pktz : Statement .pktz := by unfold Statement; decide
theorem build : Statement .build := by unfold Statement; decide
theorem insicmp : Statement .insicmp := by unfold Statement; decide
theorem insip : Statement .insip := by unfold Statement; decide

theorem csumbuf (off len : Nat) : Statement (.csumbuf off len) := by
  intro h
  simp only [Instr.wellFormed, fitsOperand, Bool.and_eq_true, decide_eq_true_eq] at h
  obtain ⟨h1, h2, h3, h4⟩ := Machine.fields_of_append 0#8 (BitVec.ofNat 8 len) (BitVec.ofNat 8 off) 0x14#8
  refine ⟨h1, h2.trans ?_, h3.trans ?_, h4, rfl, nofun, nofun⟩ <;>
    simp only [BitVec.toNat_ofNat, operandA, operandB] <;> omega

theorem fset (fid : Nat) : Statement (.fset fid) := by
  intro h
  simp only [Instr.wellFormed, fitsOperand, decide_eq_true_eq] at h
  obtain ⟨h1, h2, h3, h4⟩ := Machine.fields_of_append 0#8 0#8 (BitVec.ofNat 8 fid) 0x20#8
  refine ⟨h1, h2.trans ?_, h3, h4, rfl, nofun, fun _ => rfl⟩
  simp only [BitVec.toNat_ofNat, operandA]
  omega

theorem fget (fid : Nat) : Statement (.fget fid) := by
  intro h
  simp only [Instr.wellFormed, fitsOperand, decide_eq_true_eq] at h
  obtain ⟨h1, h2, h3, h4⟩ := Machine.fields_of_append 0#8 0#8 (BitVec.ofNat 8 fid) 0x21#8
  refine ⟨h1, h2.trans ?_, h3, h4, rfl, nofun, fun _ => rfl⟩
  simp only [BitVec.toNat_ofNat, operandA]
  omega

end Sys2Proof.Laws.WordLayout
end

