-- ==== Sys2Proof/Tests/Slice0.lean ====
section
/-! SUPPORT. Tests on fixed values, and for each statement with hypotheses a state and operands that meet them. Expected values are
those of spec/30_encoding.md (words) and spec/95_test_vectors.md (V<n>), or worked out by hand from the rule named. -/

namespace Sys2Proof.Tests

open Sys2Proof.Machine

/-! ## Helpers -/

/-- The reset state with another engine. -/
def start (e : Engine) : State := State.reset.withEngine e

/-- The engine of a next state. -/
def engineOf : Result → Option Engine
  | .next t => some t.engine
  | .fault _ => none
  | .refused _ => none

/-- The values read back in a next state, newest first. -/
def readsOf : Result → Option (List Value)
  | .next t => some (t.replies.map Reply.value)
  | .fault _ => none
  | .refused _ => none

/-- The registers of V60 before its BUILD. -/
def addressed : Engine := { Engine.reset with src := 0x0A000001, dst := 0xC0A80001, pid := 0x00001234 }

/-- The state of V60 after its BUILD. -/
def built : State := start { addressed with pkt := buildHeaders 0x0A000001 0xC0A80001 0x00001234 [] }

/-- A byte waits, the accumulator is full, and an error, the overflow and the zero flag stand. -/
def busy : State :=
  start { Engine.reset with acc := 0xFFFFFFFF, cnt := 1, pend := 0xAB, zero := true, ovf := true, err := true, ecode := 6,
                            einfo := 0x00000141 }

/-- One access at an offset. -/
def access (a : Access) (s : State) : Result := step (s.waiting (.access 0 a))

/-- A write of a command word. -/
def command (w : Word) (s : State) : Result := access (.write 0x00 (.word w)) s

/-! ## Well-formedness: each check refuses a term (spec/30_encoding.md R80) -/

theorem test_csumbuf_off_checked : (Instr.csumbuf 256 0).wellFormed = false := by decide
theorem test_csumbuf_len_checked : (Instr.csumbuf 0 256).wellFormed = false := by decide
theorem test_fset_fid_checked : (Instr.fset 256).wellFormed = false := by decide
theorem test_fget_fid_checked : (Instr.fget 256).wellFormed = false := by decide
theorem test_largest_operands_are_wellFormed : (Instr.csumbuf 255 255).wellFormed = true := by decide

/-! ## Decoding: words written out from spec/30_encoding.md R80 and R82, RSV then B, A and OP -/

theorem test_decode_nop : decode 0b00000000_00000000_00000000_00000000 = .ok .nop := by decide
theorem test_decode_clr : decode 0b00000000_00000000_00000000_00000001 = .ok .clr := by decide
theorem test_decode_feed8 : decode 0b00000000_00000000_00000000_00000010 = .ok .feed8 := by decide
theorem test_decode_feed16 : decode 0b00000000_00000000_00000000_00000011 = .ok .feed16 := by decide
theorem test_decode_feed32 : decode 0b00000000_00000000_00000000_00000100 = .ok .feed32 := by decide
theorem test_decode_final : decode 0b00000000_00000000_00000000_00000101 = .ok .final := by decide
theorem test_decode_pktz : decode 0b00000000_00000000_00000000_00010000 = .ok .pktz := by decide
theorem test_decode_build : decode 0b00000000_00000000_00000000_00010001 = .ok .build := by decide
theorem test_decode_insicmp : decode 0b00000000_00000000_00000000_00010010 = .ok .insicmp := by decide
theorem test_decode_insip : decode 0b00000000_00000000_00000000_00010011 = .ok .insip := by decide
/-- V52: `LEN = 3` in B, `OFF = 1` in A. -/
theorem test_decode_csumbuf : decode 0b00000000_00000011_00000001_00010100 = .ok (.csumbuf 1 3) := by decide
theorem test_decode_fset : decode 0b00000000_00000000_00001111_00100000 = .ok (.fset 15) := by decide
theorem test_decode_fget : decode 0b00000000_00000000_00000110_00100001 = .ok (.fget 6) := by decide
/-- V96. -/
theorem test_decode_unassigned : decode 0x00000006 = .error .illegalOp := by decide
/-- V97: the opcode is checked first. -/
theorem test_decode_opcode_first : decode 0x01000099 = .error .illegalOp := by decide
/-- V94: `A` of NOP. -/
theorem test_decode_unused_a : decode 0x00000100 = .error .reservedField := by decide
/-- V82: `B` of FGET. -/
theorem test_decode_unused_b : decode 0x00010621 = .error .reservedField := by decide
/-- V55: `RSV` of CSUMBUF. -/
theorem test_decode_rsv : decode 0x01140014 = .error .reservedField := by decide
theorem test_decodeTableWord_masks : decodeTableWord 32 0x100000001 = some .clr := by decide
theorem test_encode_csumbuf : encode (.csumbuf 20 8) = 0x00081414 := by decide

/-! ## The checksum function (section 2.1) -/

/-- V3: a trailing byte is the more significant one. -/
theorem test_checksum_odd : checksum [0xAB] = 0x54FF := by decide
/-- V14: the second fold. -/
theorem test_checksum_two_folds : checksum [0xFF, 0xFF, 0xFF, 0xFF, 0x00, 0x01] = 0xFFFE := by decide
/-- V44: the verify property fails at an odd offset. -/
theorem test_checksum_odd_offset : checksum [0x12, 0x97, 0xCB, 0x34, 0x56] = 0xCC33 := by decide

/-! ## The commands -/

/-- V93. -/
theorem test_nop : (engineOf (command 0x00000000 busy)) = some busy.engine := by decide

/-- CLR keeps the result, the zero flag and the error. -/
theorem test_clr : (engineOf (exec .clr busy)).map (fun e => (e.acc, e.cnt, e.pend, e.statusWord)) = some (0, 0, 0, 0x00000069) := by
  decide

/-- V30: only `DATA[7:0]` is fed. -/
theorem test_feed8_waits :
    (engineOf (exec .feed8 (start { Engine.reset with data := 0xFFFFFF00 }))).map (fun e => (e.acc, e.cnt, e.statusWord)) =
      some (0, 1, 0x00000004) := by decide

/-- The word `{AB, 34}` is added to a full accumulator: the carry is lost and kept in `OVF` (R104). -/
theorem test_feed8_carries :
    (engineOf (exec .feed8 { busy with engine := { busy.engine with data := 0x34, ovf := false } })).map
      (fun e => (e.acc, e.cnt, e.pend, e.ovf)) = some (0x0000AB33, 2, 0x00, true) := by decide

/-- V27. -/
theorem test_feed16_aligned :
    (engineOf (exec .feed16 (start { Engine.reset with data := 0x1234FFFF }))).map (fun e => (e.acc, e.cnt, e.pend)) =
      some (0x0000FFFF, 2, 0x00) := by decide

/-- V26: `{05, F6}` is added and F9 waits. -/
theorem test_feed16_realigns :
    (engineOf (exec .feed16 (start { Engine.reset with acc := 0x00000406, cnt := 5, pend := 0x05, data := 0x0000F6F9 }))).map
      (fun e => (e.acc, e.cnt, e.pend)) = some (0x000009FC, 7, 0xF9) := by decide

/-- V24. -/
theorem test_feed32 :
    (engineOf (exec .feed32 (start { Engine.reset with data := 0x01020304 }))).map (fun e => (e.acc, e.cnt, e.pend)) =
      some (0x00000406, 4, 0x00) := by decide

/-- V25: the waiting byte is padded, and stays. -/
theorem test_final_pads :
    (engineOf (exec .final (start { Engine.reset with acc := 0x00000406, cnt := 5, pend := 0x05 }))).map
      (fun e => (e.csum, e.acc, e.statusWord)) = some (0x0000F6F9, 0x00000406, 0x00000504) := by decide

/-- V27: a zero result sets `ZERO`. -/
theorem test_final_zero :
    (engineOf (exec .final (start { Engine.reset with acc := 0x0000FFFF, cnt := 2 }))).map (fun e => (e.csum, e.statusWord)) =
      some (0x00000000, 0x00000001) := by decide

/-- V52: an odd offset and an odd length. -/
theorem test_csumbuf_odd : (engineOf (exec (.csumbuf 1 3) built)).map Engine.csum = some 0x0000E3FF := by decide

/-- V53: `RANGE`. -/
theorem test_csumbuf_range :
    (engineOf (exec (.csumbuf 28 1) built)).map (fun e => (e.statusWord, e.einfo)) = some (0x00000038, 0x00011C14) := by decide

/-- V50. -/
theorem test_pktz : (engineOf (exec .pktz built)).map (fun e => (e.pkt, e.src)) = some ([], 0x0A000001) := by decide

/-- V60. -/
theorem test_build :
    (engineOf (exec .build (start addressed))).map (fun e => e.pkt.region 0 28) = some
      [0x45, 0x00, 0x00, 0x1C, 0x12, 0x34, 0x00, 0x00, 0xFF, 0x01, 0x00, 0x00, 0x0A, 0x00, 0x00, 0x01,
       0xC0, 0xA8, 0x00, 0x01, 0x08, 0x00, 0x00, 0x00, 0x00, 0x00, 0x00, 0x00] := by decide

/-- V65: bytes 6 and 7 are kept. -/
theorem test_build_keeps_frag :
    (engineOf (exec .build (start { Engine.reset with pkt := memWrite [] 6 (.half 0xABCD) }))).map (fun e => memRead16 e.pkt 6) =
      some 0xABCD := by decide

/-- V85. -/
theorem test_insicmp :
    (engineOf (exec .insicmp built)).map (fun e => (e.csum, e.pkt.region 20 4)) = some (0x0000F7FF, [0x08, 0x00, 0xF7, 0xFF]) := by
  decide

/-- V91: a computed zero is installed as it is. -/
theorem test_insicmp_zero :
    (engineOf (exec .insicmp (start { Engine.reset with pkt := memWrite [] 20 (.word 0xFFFF0000) }))).map
      (fun e => (e.csum, e.zero, memRead16 e.pkt 22)) = some (0x00000000, true, 0x0000) := by decide

/-- V88: a stale field is zeroed first. -/
theorem test_insip_stale :
    (engineOf (exec .insip { built with engine := { built.engine with pkt := memWrite built.engine.pkt 10 (.half 0x1234) } })).map
      (fun e => (e.csum, memRead16 e.pkt 10)) = some (0x0000DF02, 0xDF02) := by decide

/-- V75: the other nibble is kept. -/
theorem test_fset_nibble :
    (engineOf (exec (.fset 1) { built with engine := { built.engine with data := 0xF } })).map (fun e => e.pkt.read 0) =
      some 0x4F := by decide

/-- V76, and the largest value that the same 8-bit field takes. -/
theorem test_fset_width :
    (engineOf (exec (.fset 6) { built with engine := { built.engine with data := 0xFF } })).map Engine.err = some false ∧
    (engineOf (exec (.fset 6) { built with engine := { built.engine with data := 0x1FF } })).map
      (fun e => (e.statusWord, e.einfo, e.pkt.read 8)) = some (0x00000058, 0x00000620, 0xFF) := by decide

/-- V70: `IP_SRC`. -/
theorem test_fget_src : (engineOf (exec (.fget 9) built)).map Engine.fval = some 0x0A000001 := by decide

/-- V80: `BAD_FIELD`. -/
theorem test_fget_badField :
    (engineOf (exec (.fget 16) built)).map (fun e => (e.statusWord, e.einfo)) = some (0x00000048, 0x00001021) := by decide

/-! ## Accesses -/

/-- V101. -/
theorem test_read_misaligned :
    (engineOf (access (.read .half 0x41) State.reset)).map (fun e => (e.statusWord, e.einfo)) = some (0x00000068, 0x00000141) ∧
    readsOf (access (.read .half 0x41) State.reset) = some [.half 0x0000] := by decide

/-- V102. -/
theorem test_write_readonly :
    (engineOf (access (.write 0x0C (.word 5)) State.reset)).map (fun e => (e.csum, e.einfo)) = some (0, 0x0000060C) := by decide

/-- V106: the last word of the window. -/
theorem test_write_window :
    (engineOf (access (.write 0x58 (.word 0x11223344)) State.reset)).map (fun e => (e.pkt.region 24 4, e.err)) =
      some ([0x11, 0x22, 0x33, 0x44], false) := by decide

/-- V112: bits 1 and 3 are clear, so nothing changes. -/
theorem test_status_write_ignored :
    (engineOf (access (.write 0x08 (.word 0xFFFFFFF5)) busy)) = some busy.engine := by decide

/-- V113, beside a waiting byte. -/
theorem test_status_write_clears :
    (engineOf (access (.write 0x08 (.word 0x0000000A)) busy)).map (fun e => (e.statusWord, e.einfo)) = some (0x0000AB05, 0) := by
  decide

/-- Section 2.10: the first error stays. -/
theorem test_first_error_latches :
    (engineOf (command 0x00000101 busy)).map (fun e => (e.statusWord, e.einfo)) = some (0x0000AB6F, 0x00000141) := by decide

/-- `withFetchWord` places the word as the next step's command. -/
theorem test_withFetchWord : engineOf (step (State.reset.withFetchWord 32 0x00000005)) = engineOf (exec .final State.reset) := by
  decide

/-! ## Text (spec/30_encoding.md R92, R93) -/

/-- P2, line 2, and a line that is a comment alone. -/
theorem test_assemble_write :
    assemble 0 "wait: ".toList = none ∧ assemble 0 "WR DATA, 0x01020304 ; four bytes\n; none".toList =
      some [.access 0 (.write 0x04 (.word 0x01020304))] := by decide

/-- V52, then a field by its name and by its number. -/
theorem test_assemble_commands :
    assemble 0 "CSUMBUF 1, 3\nFSET ICMP_SEQ\nFGET 16".toList =
      some [commandWrite 0x00030114, commandWrite 0x00000F20, commandWrite 0x00001021] := by decide

/-- P3, lines 7 and 14, and a clear of the error. -/
theorem test_assemble_window :
    assemble 0 "WRB 8, 0x40\nRDH 10\nCLRERR".toList =
      some [.access 0 (.write 0x48 (.byte 0x40)), .access 0 (.read .half 0x4A), .access 0 (.write 0x08 (.word 8))] := by decide

/-! ## Witnesses: for each statement with hypotheses, a state and operands that meet them, at the edges of each clause -/

theorem witness_EncodedCommandsDecodeToThemselves :
    (Instr.csumbuf 255 255).wellFormed = true ∧ (Instr.fset 255).wellFormed = true ∧ (Instr.fget 0).wellFormed = true ∧
    Instr.nop.wellFormed = true := by decide

theorem witness_DecodedWordsAreTheEncoding :
    decode 0x00FFFF14 = .ok (.csumbuf 255 255) ∧ decode 0x0000FF20 = .ok (.fset 255) ∧ decode 0x00000000 = .ok .nop := by decide

/-- An opcode beside the map's first gap, one with every other field zero but `RSV`, one with `A` alone, one with `B` alone, and
the largest operands. -/
theorem witness_ExecuteChecksOpcodeThenReservedFields :
    (((0x00000006 : Word).extractLsb' 0 8).toNat ∉ [0x00, 0x01, 0x02, 0x03, 0x04, 0x05, 0x10, 0x11, 0x12, 0x13, 0x14, 0x20, 0x21]) ∧
    (((0x01000014 : Word).extractLsb' 0 8).toNat = 0x14 ∧ ((0x01000014 : Word).extractLsb' 24 8).toNat ≠ 0) ∧
    (((0x00000100 : Word).extractLsb' 0 8).toNat = 0x00 ∧ ((0x00000100 : Word).extractLsb' 8 8).toNat ≠ 0) ∧
    (((0x00010021 : Word).extractLsb' 0 8).toNat = 0x21 ∧ ((0x00010021 : Word).extractLsb' 16 8).toNat ≠ 0) ∧
    (((0x00FFFF14 : Word).extractLsb' 0 8).toNat = 0x14 ∧ ((0x00FFFF14 : Word).extractLsb' 24 8).toNat = 0) := by decide

/-- A command whose own check fails in a state with `ERR` clear. -/
theorem witness_ExecuteChecksTheOwnCheck :
    ∃ t, decode 0x00011C14 = .ok (.csumbuf 28 1) ∧ exec (.csumbuf 28 1) built = .next t ∧ built.engine.err = false ∧
      t.engine.err = true := ⟨_, rfl, rfl, rfl, rfl⟩

theorem witness_CommandWriteRunsTheDecodedCommand :
    decode 0x00000021 = .ok (.fget 0) ∧ decode 0x00000022 = .error .illegalOp ∧ decode 0x80000013 = .error .reservedField := by decide

theorem witness_IdleEngineNeverSteps : State.reset.pending = [] := rfl

/-- The invariant holds of a state that holds something everywhere, and a step runs from it. -/
theorem witness_EveryStepKeepsTheInvariant :
    ∃ s t : State, s.Inv ∧ s.engine.err = true ∧ s.engine.pkt ≠ [] ∧ step s = .next t :=
  ⟨{ busy with engine := { busy.engine with pkt := [(0, 0x45), (27, 0x01)] }, pending := [commandWrite 0x00000010] }, _,
    ⟨by decide, by decide, by decide, by decide, by decide, by decide, by decide⟩, rfl, by decide, rfl⟩

/-- The first and the last register, each width at the two ends of the window, and a bad access at the edge of each rule. -/
theorem witness_HostReadFollowsTheRegisterMap :
    ((0x00 : Offset).val % 4 = 0 ∧ (0x00 : Offset).val ≤ 0x2C) ∧ ((0x2C : Offset).val % 4 = 0 ∧ (0x2C : Offset).val ≤ 0x2C) ∧
    (0x40 ≤ (0x40 : Offset).val ∧ ((0x40 : Offset).val - 0x40) % Width.word.bytes = 0) ∧
    (0x40 ≤ (0x58 : Offset).val ∧ ((0x58 : Offset).val - 0x40) % Width.word.bytes = 0 ∧
      ((0x58 : Offset).val - 0x40) + Width.word.bytes ≤ 28) ∧
    (((0x5A : Offset).val - 0x40) % Width.half.bytes = 0 ∧ ((0x5A : Offset).val - 0x40) + Width.half.bytes ≤ 28) ∧
    ((0x5B : Offset).val - 0x40) + Width.byte.bytes ≤ 28 ∧
    ¬((0x5C : Offset).val - 0x40) + Width.byte.bytes ≤ 28 ∧ ¬((0x42 : Offset).val - 0x40) % Width.word.bytes = 0 ∧
    ¬(0x30 : Offset).val ≤ 0x2C ∧ ¬0x40 ≤ (0x3F : Offset).val ∧ ¬(0x02 : Offset).val % 4 = 0 := by decide

/-- Every offset that the clauses on words name, the window's ends, and a bad access of each width. -/
theorem witness_HostWriteFollowsTheRegisterMap :
    (0x40 ≤ (0x5B : Offset).val ∧ ((0x5B : Offset).val - 0x40) % (Value.byte 1).width.bytes = 0 ∧
      ((0x5B : Offset).val - 0x40) + (Value.byte 1).width.bytes ≤ 28) ∧
    ((0x2C : Offset) ∈ ([0x0C, 0x10, 0x14, 0x24, 0x28, 0x2C] : List Offset)) ∧
    ¬(Value.half 1).width = .word ∧ ¬0x40 ≤ (0x04 : Offset).val ∧ ¬(0x30 : Offset).val ≤ 0x2C ∧
    ¬((0x5C : Offset).val - 0x40) + (Value.word 1).width.bytes ≤ 28 := by decide

theorem witness_ErrorRecordHoldsTheWordOrTheAccess :
    (∃ t, State.reset.engine.err = false ∧ execute 0x00000006 State.reset = .next t ∧ t.engine.err = true) ∧
    (∃ t, performEvent (.access 0 (.read .byte 0x5C)) State.reset = .next t ∧ t.engine.err = true) ∧
    (∃ t, performEvent (.access 0 (.write 0x00 (.half 0x0010))) State.reset = .next t ∧ t.engine.err = true) ∧
    ∀ w, Value.half 0x0010 = .word w → (0x00 : Offset) ≠ 0x00 :=
  ⟨⟨_, rfl, rfl, rfl⟩, ⟨_, rfl, rfl⟩, ⟨_, rfl, rfl⟩, nofun⟩

theorem witness_WindowWordReadsBackAsHalfAndByte :
    (0x40 ≤ (0x40 : Offset).val ∧ (0x40 : Offset).val % 4 = 0 ∧ (0x42 : Offset).val = (0x40 : Offset).val + 2) ∧
    ((0x58 : Offset).val % 4 = 0 ∧ (0x58 : Offset).val + 4 ≤ 0x5C ∧ (0x5A : Offset).val = (0x58 : Offset).val + 2) := by decide

/-- A bad read, which leaves an error and returns a value. -/
theorem witness_AccessesOtherThanCommandsAreIdempotent :
    ∃ s t : State, s.Inv ∧ (∀ w, Access.read .half 0x41 ≠ .write 0x00 (.word w)) ∧
      runEvents [.access 0 (.read .half 0x41)] s = .next t ∧ t.engine ≠ s.engine :=
  ⟨start { Engine.reset with csum := 0x0000F7FF }, _,
    ⟨by decide, by decide, by decide, by decide, by decide, by decide, by decide⟩, nofun, rfl, by decide⟩

/-- Each operand register is changed by a write of it. -/
theorem witness_OperandRegistersBelongToTheHost :
    (∃ t, performEvent (regWrite 0 .data 1) State.reset = .next t ∧ t.engine.data ≠ State.reset.engine.data) ∧
    (∃ t, performEvent (regWrite 0 .src 1) State.reset = .next t ∧ t.engine.src ≠ State.reset.engine.src) ∧
    (∃ t, performEvent (regWrite 0 .dst 1) State.reset = .next t ∧ t.engine.dst ≠ State.reset.engine.dst) ∧
    (∃ t, performEvent (regWrite 0 .pid 1) State.reset = .next t ∧ t.engine.pid ≠ State.reset.engine.pid) ∧
    regWrite 0 .data 1 ≠ .reset :=
  ⟨⟨_, rfl, by decide⟩, ⟨_, rfl, by decide⟩, ⟨_, rfl, by decide⟩, ⟨_, rfl, by decide⟩, nofun⟩

theorem witness_EngineDoesNotDistinguishAgents :
    ∃ t, performEvent (.access 7 (.read .half 0x41)) State.reset = .next t := ⟨_, rfl⟩

/-- The addresses just below and just above the engine. -/
theorem witness_PlatformAddressesAreOffsetsFromTheBase :
    (PlatformAccess.read .word 0xFFF).addr < 0x1000 ∧ 0x1000 + 0x60 ≤ (PlatformAccess.write 0x1060 (.byte 0)).addr := by decide

theorem witness_RaisingAnErrorRecordsTheFirst :
    State.reset.engine.err = false ∧ busy.engine.err = true ∧ regAt .half 0x5B = none ∧ windowIndex .half 0x5B = none := by decide

theorem witness_ErrorsArePrecise :
    (∃ t, performEvent (.access 0 (.write 0x0C (.word 5))) State.reset = .next t ∧ t.engine.err = true) ∧
    ∃ t u, performEvent (.access 0 (.write 0x0C (.word 5))) busy = .next t ∧
      performEvent (.access 0 (.write 0x0C (.word 5))) (busy.withEngine { busy.engine with err := false }) = .next u ∧
      u.engine.err = true := ⟨⟨_, rfl, rfl⟩, _, _, rfl, rfl, rfl⟩

/-- A command that succeeds, a `STATUS` write that leaves `ERR`, and a read of `STATUS`. -/
theorem witness_ErrorFlagDoesNotChangeExecution :
    (∃ u, performEvent (.access 0 (.write 0x00 (.word 0x00000010))) (busy.withEngine { busy.engine with err := false }) = .next u ∧
      u.engine.err = false) ∧
    (∃ u, performEvent (.access 0 (.write 0x08 (.word 0x00000002))) (busy.withEngine { busy.engine with err := false }) = .next u ∧
      u.engine.err = false ∧ (0x00000002 : Word).getLsbD 3 = false) ∧
    ∃ u, performEvent (.access 0 (.read .word 0x08)) (busy.withEngine { busy.engine with err := false }) = .next u ∧
      u.engine.err = false := ⟨⟨_, rfl, rfl⟩, ⟨_, rfl, rfl, rfl⟩, _, rfl, rfl⟩

/-- Every disjunct has a word that reaches it. -/
theorem witness_CommandsRaiseOnlyTheirOwnCodes :
    (engineOf (execute 0x00000006 built)).map Engine.ecode = some 1 ∧ (engineOf (execute 0x00000100 built)).map Engine.ecode = some 2 ∧
    (engineOf (execute 0x00011C14 built)).map Engine.ecode = some 3 ∧ (engineOf (execute 0x00001020 built)).map Engine.ecode = some 4 ∧
    (engineOf (execute 0x00000020 (start { Engine.reset with data := 16 }))).map Engine.ecode = some 5 ∧
    (engineOf (execute 0x00001021 built)).map Engine.ecode = some 4 := by decide

/-- Each clause at its boundary: the first unassigned opcode, a region one byte too long, the first reserved field id, and the
first value too wide. -/
theorem witness_FirstFailingCheckDecidesTheCode :
    (0x06 : Byte).toNat ∉ [0x00, 0x01, 0x02, 0x03, 0x04, 0x05, 0x10, 0x11, 0x12, 0x13, 0x14, 0x20, 0x21] ∧
    (0x13 : Byte).toNat ∈ [0x00, 0x01, 0x02, 0x03, 0x04, 0x05, 0x10, 0x11, 0x12, 0x13] ∧
    28 < (28 : Byte).toNat + (1 : Byte).toNat ∧ (0x01 : Byte) ≠ 0 ∧ 15 < (16 : Byte).toNat ∧
    fieldOfId (0 : Byte).toNat = some .ipVer ∧
    2 ^ fieldWidth .ipVer ≤ (start { Engine.reset with data := 0x10 }).engine.data.toNat := by decide

theorem witness_StatusWriteWithBit3IsTheErrorReturn :
    ∃ (s : State) (v : Word), v.getLsbD 3 = true ∧ s.Inv ∧ s.engine.err = false ∧ v.getLsbD 1 = false :=
  ⟨start { Engine.reset with ovf := true }, 0x00000008, rfl,
    ⟨by decide, by decide, by decide, by decide, by decide, by decide, by decide⟩, rfl, rfl⟩

/-- `OVF` is set by a feed and by FINAL, and cleared by CLR and by a `STATUS` write. -/
theorem witness_OverflowFlagIsSticky :
    (∃ t, performEvent (regWrite 0 .cmd 0x00000005) (busy.withEngine { busy.engine with ovf := false }) = .next t ∧
      t.engine.ovf = true) ∧
    (∃ t, performEvent (regWrite 0 .cmd 0x00000001) busy = .next t ∧ busy.engine.ovf = true ∧ t.engine.ovf = false) ∧
    (0xFFFFFFF7 : Word).getLsbD 1 = true := ⟨⟨_, rfl, by decide⟩, ⟨_, rfl, rfl, rfl⟩, rfl⟩

/-- A run with a command, a read and a `STATUS` write that ends with `ERR` clear. -/
theorem witness_CleanErrorFlagMeansNoAccessErred :
    ∃ t u : State, runEvents [regWrite 0 .cmd 0x00000010, regRead 0 .status] State.reset = .next t ∧
      runEvents [regWrite 0 .status 0xFFFFFFF7] t = .next u ∧ u.engine.err = false ∧ (0xFFFFFFF7 : Word).getLsbD 3 = false :=
  ⟨_, _, rfl, rfl, rfl, rfl⟩

/-! Words with a command's opcode that are not the command's word: `RSV`, `B` or `A` is not zero. -/

theorem witness_NopChangesNothing :
    (0x00000100 : Word).extractLsb' 0 8 = (0x00000000 : Word).extractLsb' 0 8 ∧ (0x00000100 : Word) ≠ 0x00000000 := by decide

theorem witness_ClrClearsTheStreamingState :
    (0x00000101 : Word).extractLsb' 0 8 = (0x00000001 : Word).extractLsb' 0 8 ∧ (0x00000101 : Word) ≠ 0x00000001 := by decide

theorem witness_Feed8FeedsTheLowByte :
    (0x80000002 : Word).extractLsb' 0 8 = (0x00000002 : Word).extractLsb' 0 8 ∧ (0x80000002 : Word) ≠ 0x00000002 := by decide

theorem witness_FinalWritesTheComplementedFoldOfAccAndPad :
    (0x00800005 : Word).extractLsb' 0 8 = (0x00000005 : Word).extractLsb' 0 8 ∧ (0x00800005 : Word) ≠ 0x00000005 := by decide

theorem witness_PktzZeroesTheBuffer :
    (0x00001010 : Word).extractLsb' 0 8 = (0x00000010 : Word).extractLsb' 0 8 ∧ (0x00001010 : Word) ≠ 0x00000010 := by decide

theorem witness_BuildWritesBothHeaders :
    (0x00010011 : Word).extractLsb' 0 8 = (0x00000011 : Word).extractLsb' 0 8 ∧ (0x00010011 : Word) ≠ 0x00000011 := by decide

theorem witness_InsicmpInstallsTheIcmpChecksum :
    (0x01000012 : Word).extractLsb' 0 8 = (0x00000012 : Word).extractLsb' 0 8 ∧ (0x01000012 : Word) ≠ 0x00000012 := by decide

theorem witness_InsipInstallsTheIpChecksum :
    (0x80000013 : Word).extractLsb' 0 8 = (0x00000013 : Word).extractLsb' 0 8 ∧ (0x80000013 : Word) ≠ 0x00000013 := by decide

theorem witness_FeedByteWaitsOrCompletesAWord :
    State.reset.engine.cnt.getLsbD 0 = false ∧ busy.engine.cnt.getLsbD 0 = true := by decide

/-- A word that is not FEED16's, and a state of either parity. -/
theorem witness_Feed16FeedsTwoBytes :
    (0x00000103 : Word).extractLsb' 0 8 = (0x00000003 : Word).extractLsb' 0 8 ∧ (0x00000103 : Word) ≠ 0x00000003 ∧
    State.reset.engine.odd = false ∧ busy.engine.odd = true := by decide

/-- A word that is not FEED32's, and a state of either parity. -/
theorem witness_Feed32FeedsFourBytes :
    (0x00010004 : Word).extractLsb' 0 8 = (0x00000004 : Word).extractLsb' 0 8 ∧ (0x00010004 : Word) ≠ 0x00000004 ∧
    State.reset.engine.odd = false ∧ busy.engine.odd = true := by decide

/-- The field at the even offset 0, and in the last two bytes. -/
theorem witness_ChecksumInstalledAtEvenOffsetVerifies :
    (([0x00, 0x00, 0xFF, 0xFF] : List Byte).length ≤ 131074 ∧ ([0x00, 0x00, 0xFF, 0xFF] : List Byte)[0]? = some 0x00 ∧
      ([0x00, 0x00, 0xFF, 0xFF] : List Byte)[0 + 1]? = some 0x00) ∧
    (2 % 2 = 0 ∧ 2 + 1 < ([0x08, 0x00, 0x00, 0x00] : List Byte).length ∧
      ([0x08, 0x00, 0x00, 0x00] : List Byte)[2]? = some 0x00 ∧ ([0x08, 0x00, 0x00, 0x00] : List Byte)[2 + 1]? = some 0x00) := by
  decide

theorem witness_ChecksumIsAllOnesOnlyOfZeroBytes :
    ([0x00, 0x01] : List Byte).length ≤ 131074 ∧ checksum [0x00, 0x01] ≠ 0xFFFF ∧ checksum [0x00, 0x00] = 0xFFFF := by decide

theorem witness_ChecksumIgnoresTheOrderOfWords : ([0x0001, 0xFFFF] : List Half).Perm [0xFFFF, 0x0001] := .swap ..

theorem witness_ChecksumOfSwappedBytesIsSwapped : 2 * ([0x1234] : List Half).length ≤ 131074 := by decide

/-- A run of the stream's events whose `OVF` stays 0. -/
theorem witness_StreamedChecksumIsTheChecksumOfTheBytesFed :
    ∃ t, runEvents (regWrite 0 .cmd 0x00000001 :: (feedEvents 0 (.byte 0xAB) ++ [regWrite 0 .cmd 0x00000005])) busy = .next t ∧
      ([Feed.byte 0xAB].flatMap fedBy).length ≤ 131074 ∧ t.engine.ovf = false := ⟨_, rfl, by decide, by decide⟩

/-- The whole buffer, the empty region at its end, and one byte more. -/
theorem witness_CsumbufWritesTheChecksumOfTheRegion : 0 + 28 ≤ 28 ∧ 28 + 0 ≤ 28 ∧ 28 < 28 + 1 ∧ 28 < 255 + 255 := by decide

/-- Two states that differ everywhere but in the bytes of the region. -/
theorem witness_EqualBytesGiveEqualChecksums :
    27 + 1 ≤ 28 ∧ (∀ k, 27 ≤ k → k < 27 + 1 → built.engine.pkt.read k = busy.engine.pkt.read k) := by
  refine ⟨by decide, fun k h1 h2 => ?_⟩
  obtain rfl : k = 27 := by omega
  decide

theorem witness_ZeroFlagFollowsTheChecksumResult :
    (∃ t, performEvent (regWrite 0 .cmd 0x00140014) built = .next t ∧ regWrite 0 .cmd 0x00140014 ≠ .reset ∧
      t.engine.csum ≠ built.engine.csum) ∧
    (∃ t, performEvent (regWrite 0 .cmd 0x00000005) busy = .next t ∧ t.engine.zero ≠ busy.engine.zero) ∧
    ∃ off len, Instr.csumbuf 0 28 = .csumbuf off len ∧ off + len ≤ 28 :=
  ⟨⟨_, rfl, nofun, by decide⟩, ⟨_, rfl, by decide⟩, 0, 28, rfl, by decide⟩

theorem witness_FgetAfterBuildReturnsTheBuiltValue : ∃ t, exec .build (start addressed) = .next t := ⟨_, rfl⟩

/-- The first reserved field id, and each side of the width check of a nibble and of a 32-bit field. -/
theorem witness_FsetWritesDataIntoTheField :
    15 < 16 ∧ fieldId .ipVer = 0 ∧ 2 ^ fieldWidth .ipVer ≤ (0x10 : Word).toNat ∧ (0xF : Word).toNat < 2 ^ fieldWidth .ipVer ∧
    fieldId .icmpSeq = 15 ∧ (0xFFFFFFFF : Word).toNat < 2 ^ fieldWidth .ipDst := by decide

theorem witness_FgetReadsTheFieldIntoFval : 15 < 16 ∧ fieldId .ipVer = 0 ∧ fieldId .icmpSeq = 15 := by decide

theorem witness_FieldsAreIndependent :
    (0xF : Word).toNat < 2 ^ fieldWidth .ipIhl ∧ Field.ipVer ≠ .ipIhl ∧ (0xFFFFFFFF : Word).toNat < 2 ^ fieldWidth .ipSrc := by decide

theorem witness_InstalledChecksumsVerify :
    ∃ t u : State, exec .insicmp built = .next t ∧ exec .insip built = .next u ∧
      (∀ k, 20 ≤ k → k < 28 → t.engine.pkt.read k = t.engine.pkt.read k) ∧
      ∀ k, k < 20 → u.engine.pkt.read k = u.engine.pkt.read k := ⟨_, _, rfl, rfl, fun _ _ _ => rfl, fun _ _ => rfl⟩

/-- The wire length of the headers, the largest that fits, and one beyond it (V79). -/
theorem witness_WirelenIsTheTotalLengthField :
    256 * (built.engine.pkt.read 2).toNat + (built.engine.pkt.read 3).toNat ≤ 28 ∧
    28 < 256 * ((memWrite [] 2 (.half 0x001D)).read 2).toNat + ((memWrite [] 2 (.half 0x001D)).read 3).toNat := by decide

/-- Each command with a check of its own on both sides of it, and one that writes the buffer. -/
theorem witness_CommandsWriteOnlyTheirState :
    (∃ t, exec .insip built = .next t ∧ t.engine ≠ built.engine) ∧
    (∃ t, exec (.csumbuf 28 1) built = .next t ∧ 28 < 28 + 1) ∧ (∃ t, exec (.csumbuf 28 0) built = .next t ∧ 28 + 0 ≤ 28) ∧
    (∃ t, exec (.fset 16) built = .next t ∧ 15 < 16) ∧
    (∃ t, exec (.fset 0) (start { Engine.reset with data := 0x10 }) = .next t ∧ fieldId .ipVer = 0 ∧
      2 ^ fieldWidth .ipVer ≤ (start { Engine.reset with data := 0x10 }).engine.data.toNat) ∧
    (∃ t, exec (.fset 1) (start { Engine.reset with data := 0xF }) = .next t ∧ fieldId .ipIhl = 1 ∧
      (start { Engine.reset with data := 0xF }).engine.data.toNat < 2 ^ fieldWidth .ipIhl) ∧
    (∃ t, exec (.fget 16) built = .next t ∧ 15 < 16) ∧ ∃ t, exec (.fget 15) built = .next t ∧ 15 ≤ 15 :=
  ⟨⟨_, rfl, by decide⟩, ⟨_, rfl, by decide⟩, ⟨_, rfl, by decide⟩, ⟨_, rfl, by decide⟩, ⟨_, rfl, rfl, by decide⟩,
    ⟨_, rfl, rfl, by decide⟩, ⟨_, rfl, by decide⟩, _, rfl, by decide⟩

theorem witness_HostSequenceClearsAllButResults :
    ∃ s : State, s.Inv ∧ s.engine.err = true ∧ s.engine.zero = true ∧ s.engine.cnt = 1 :=
  ⟨busy, ⟨by decide, by decide, by decide, by decide, by decide, by decide, by decide⟩, rfl, rfl, rfl⟩

end Sys2Proof.Tests
end

section
/-! The machine's steps and the port's order (spec/00_scope.md R6, R7). An event neither reads nor writes what waits behind it, so
taking the events from the waiting list is running them one after another. -/

namespace Sys2Proof.Machine

/-! ## One step of the machine -/

/-- The idle case of the port (log entry 2). -/
theorem step_of_pending_nil {s : State} (h : s.pending = []) : step s = .next s := by
  simp [step, portStep, h]

/-- The step of a state whose waiting list is written out takes the list's first event. -/
theorem step_pending_cons (s : State) (ev : PortEvent) (rest : List PortEvent) :
    step { s with pending := ev :: rest } = performEvent ev { s with pending := rest } := rfl

/-- A run of the machine goes on from the next state of its first step. -/
theorem run_succ {s t : State} (k : Nat) (h : step s = .next t) :
    Host.Core.run Sys2Proof.core (k + 1) s = Host.Core.run Sys2Proof.core k t := by
  have hc : Sys2Proof.core.step s = .next t := h
  simp [Host.Core.run, hc]

/-- Every event has a next state (spec/20_memory.md R69, spec/70_reset_and_hazards.md R250). -/
theorem performEvent_next (ev : PortEvent) (s : State) : ∃ t, performEvent ev s = .next t := by
  rcases ev with ⟨agent, ⟨n, off⟩ | ⟨off, v⟩⟩ | _
  · exact ⟨_, perform_read s agent off n⟩
  · obtain ⟨e, he⟩ := hostWrite_next off v s
    exact ⟨_, he⟩
  · exact ⟨_, rfl⟩

/-! ## No event reads what waits at the port

Each lemma: from the same state with another waiting list, the same next state with that other list. -/

theorem exec_with_pending {i : Instr} {s t : State} (p : List PortEvent) (h : exec i s = .next t) :
    exec i { s with pending := p } = .next { t with pending := p } := by
  cases i <;> cases h <;> rfl

theorem execute_with_pending {w : Word} {s t : State} (p : List PortEvent) (h : execute w s = .next t) :
    execute w { s with pending := p } = .next { t with pending := p } := by
  obtain ⟨c, hc, rfl⟩ | ⟨i, hi, hx⟩ := execute_cases h
  · simp [execute, hc, State.withEngine]
  · simpa [execute, hi] using exec_with_pending p hx

theorem writeReg_with_pending {r : Reg} {w : Word} {s t : State} (p : List PortEvent) (h : writeReg r w s = .next t) :
    writeReg r w { s with pending := p } = .next { t with pending := p } := by
  cases r
  case cmd => exact execute_with_pending p h
  all_goals
    cases h
    rfl

theorem performEvent_with_pending {ev : PortEvent} {s t : State} (p : List PortEvent) (h : performEvent ev s = .next t) :
    performEvent ev { s with pending := p } = .next { t with pending := p } := by
  cases ev with
  | reset =>
    cases h
    rfl
  | access agent a =>
    obtain ⟨n, off, rfl, rfl⟩ | ⟨r, w, rfl, hw⟩ | ⟨off, v, k, rfl, hr, hk, rfl⟩ | ⟨off, v, rfl, hr, hk, rfl⟩ := access_cases h
    · rfl
    · rw [perform_write, hostWrite_reg]
      exact writeReg_with_pending p hw
    · rw [perform_write, hostWrite_window _ hr hk]
      rfl
    · rw [perform_write, hostWrite_bad _ hr hk]
      rfl

/-- As many steps as events wait before `rest` are the run of those events. -/
theorem run_pending_append (es rest : List PortEvent) (s : State) :
    Host.Core.run Sys2Proof.core es.length { s with pending := es ++ rest } = runEvents es { s with pending := rest } := by
  induction es generalizing s with
  | nil => rfl
  | cons ev es ih =>
    obtain ⟨t, ht⟩ := performEvent_next ev s
    have hstep : step { s with pending := ev :: (es ++ rest) } = .next { t with pending := es ++ rest } :=
      (step_pending_cons s ev _).trans (performEvent_with_pending _ ht)
    have hrun : runEvents (ev :: es) { s with pending := rest } = runEvents es { t with pending := rest } :=
      runEvents_cons (performEvent_with_pending rest ht)
    exact (run_succ es.length hstep).trans ((ih t).trans hrun.symm)

end Sys2Proof.Machine

open Sys2Proof.Machine

/-- Settles O8, by induction on the waiting events. -/
theorem stepsTakeTheAccessesInPortOrder : Obligations.StepsTakeTheAccessesInPortOrder := by
  unfold Obligations.StepsTakeTheAccessesInPortOrder
  exact run_pending_append

/-- Settles O7: the port's empty case. -/
theorem idleEngineNeverSteps : Obligations.IdleEngineNeverSteps := by
  unfold Obligations.IdleEngineNeverSteps
  exact fun _ => step_of_pending_nil

end

section
/-! What a command and an event can do to the engine, said once, and from it which of them can change each part of the state
(spec/10_state.md R22 to R43). -/

namespace Sys2Proof.Machine

/-! ## All that a command can do -/

/-- `CommandEffect e i e'`: `e'` is one of the engines that the command `i` can leave behind when it runs in `e`. Which bytes
are fed, which result is written and what is stored are left open: it says which command can change which fields. -/
inductive CommandEffect (e : Engine) : Instr → Engine → Prop
  | idles : CommandEffect e .nop e
  | clears : CommandEffect e .clr (clearStream e)
  | feeds (i : Instr) (bs : List Byte) (hi : i = .feed8 ∨ i = .feed16 ∨ i = .feed32) : CommandEffect e i (feedBytes bs e)
  | finishes : CommandEffect e .final (finish e)
  | sums (i : Instr) (r : Half) (m : Memory) (hi : i = .insicmp ∨ i = .insip ∨ ∃ off len, i = .csumbuf off len) :
      CommandEffect e i (setResult r { e with pkt := m })
  | stores (i : Instr) (m : Memory) (hi : i = .pktz ∨ i = .build ∨ ∃ fid, i = .fset fid) :
      CommandEffect e i { e with pkt := m }
  | gets (fid : Nat) (v : Word) : CommandEffect e (.fget fid) { e with fval := v }
  | raises (i : Instr) (c : ErrorCode) (hi : (∃ off len, i = .csumbuf off len) ∨ (∃ fid, i = .fset fid) ∨ ∃ fid, i = .fget fid) :
      CommandEffect e i (raiseError c (encode i) e)

/-- Every command's next engine is one of these. -/
theorem exec_effect {i : Instr} {s t : State} (h : exec i s = .next t) : CommandEffect s.engine i t.engine := by
  cases i
  case nop =>
    cases h
    exact .idles
  case clr =>
    cases h
    exact .clears
  case feed8 | feed16 | feed32 =>
    cases h
    exact .feeds _ _ (by simp)
  case final =>
    cases h
    exact .finishes
  case insicmp | insip =>
    cases h
    exact .sums _ _ _ (by simp)
  case csumbuf off len =>
    simp only [exec, execCsumbuf] at h
    split at h <;> cases h
    · exact .raises _ _ (by simp)
    · exact .sums _ _ s.engine.pkt (by simp)
  case pktz | build =>
    cases h
    exact .stores _ _ (by simp)
  case fset fid =>
    simp only [exec, execFset] at h
    split at h
    · cases h
      exact .raises _ _ (by simp)
    · split at h <;> cases h
      · exact .raises _ _ (by simp)
      · exact .stores _ _ (by simp)
  case fget fid =>
    simp only [exec, execFget] at h
    split at h <;> cases h
    · exact .raises _ _ (by simp)
    · exact .gets _ _

/-! ## The overflow flag -/

/-- Only the byte that completes a word can carry (spec/40_checksum_engine.md R104). -/
theorem feedByte_ovf (b : Byte) (e : Engine) : (feedByte b e).ovf =
    (e.ovf || (e.odd && carriesOut (e.acc.toNat + (e.pend ++ b : Half).toNat))) := by
  cases h : e.odd
  · simp [feedByte_even b e h]
  · simp [feedByte_odd b e h]

/-- Bytes fed never clear `OVF` (spec/10_state.md R28). -/
theorem feedBytes_ovf_stays (bs : List Byte) {e : Engine} (he : e.ovf = true) : (feedBytes bs e).ovf = true := by
  induction bs generalizing e with
  | nil => exact he
  | cons b bs ih => exact ih (by simp [feedByte_ovf, he])

/-- FINAL adds the pad of a waiting byte, and only that can carry (spec/40_checksum_engine.md R110). -/
theorem finish_ovf (e : Engine) : (finish e).ovf =
    (e.ovf || (e.odd && carriesOut (e.acc.toNat + (e.pend ++ 0#8 : Half).toNat))) := by
  cases h : e.odd
  · have hc : ¬2 ^ 32 ≤ e.acc.toNat := Nat.not_le.mpr e.acc.isLt
    simp [finish, h, carriesOut, -Nat.reducePow, hc]
  · simp [finish, h]

/-! ## Which command can change which field -/

section

variable {e e' : Engine} {i : Instr}

/-- No command writes an operand register (spec/10_state.md R22 to R25). -/
theorem CommandEffect.operands (h : CommandEffect e i e') :
    e'.data = e.data ∧ e'.src = e.src ∧ e'.dst = e.dst ∧ e'.pid = e.pid := by
  cases h <;> simp [finish]

/-- No command clears `ERR` (spec/10_state.md R30). -/
theorem CommandEffect.err_stays (h : CommandEffect e i e') (he : e.err = true) : e'.err = true := by
  cases h <;> simp [finish, he]

/-- Only FINAL, INSICMP, INSIP and CSUMBUF change `ZERO` or `CSUM` (spec/10_state.md R27). -/
theorem CommandEffect.result_changed (h : CommandEffect e i e') (hne : e'.zero ≠ e.zero ∨ e'.csum ≠ e.csum) :
    i = .final ∨ i = .insicmp ∨ i = .insip ∨ ∃ off len, i = .csumbuf off len := by
  cases h
  case finishes => exact .inl rfl
  case sums r m hi => exact .inr hi
  all_goals simp at hne

/-- The only command that clears `OVF` is CLR (spec/10_state.md R28). -/
theorem CommandEffect.ovf_cleared (h : CommandEffect e i e') (he : e.ovf = true) (he' : e'.ovf = false) : i = .clr := by
  cases h
  case clears => rfl
  case feeds bs hi => simp [feedBytes_ovf_stays bs he] at he'
  all_goals simp [finish_ovf, he] at he'

/-- The only commands that set `OVF` are the feeds and FINAL (spec/10_state.md R28). -/
theorem CommandEffect.ovf_set (h : CommandEffect e i e') (he : e.ovf = false) (he' : e'.ovf = true) :
    i = .feed8 ∨ i = .feed16 ∨ i = .feed32 ∨ i = .final := by
  cases h
  case feeds bs hi => tauto
  case finishes => simp
  all_goals simp [he] at he'

end

/-! ## The word of a decoded command -/

/-- A word that decodes is the encoding of its command (spec/30_encoding.md R80, R84): its fields are the command's. -/
theorem encode_of_decode {w : Word} {i : Instr} (h : decode w = .ok i) : encode i = w := by
  obtain ⟨hi, hr, ha, hb⟩ := decode_ok h
  rw [word_eq_fields w, hr]
  generalize wordOp w = op, wordA w = a, wordB w = b at *
  unfold instrOfOp at hi
  split at hi <;> cases hi
  -- the eleventh row is CSUMBUF, which uses both operand fields, and the last two are FSET and FGET, which use `A`
  case h_11 => rfl
  case h_12 | h_13 =>
    rw [hb rfl]
    rfl
  all_goals
    rw [ha rfl, hb rfl]
    rfl

/-! ## All that an event can do -/

/-- `EventEffect e ev e'`: `e'` is one of the engines that the event `ev` can leave behind when the port takes it in `e`. A
bad access is told by its error alone, and so is a command that raises one of the decoder's errors. -/
inductive EventEffect (e : Engine) : PortEvent → Engine → Prop
  | resets : EventEffect e .reset Engine.reset
  | runs (agent : Nat) (w : Word) (i : Instr) (e' : Engine) (hw : decode w = .ok i) (hi : CommandEffect e i e') :
      EventEffect e (regWrite agent .cmd w) e'
  | status (agent : Nat) (w : Word) : EventEffect e (regWrite agent .status w) (writeStatus w e)
  | data (agent : Nat) (w : Word) : EventEffect e (regWrite agent .data w) { e with data := w }
  | src (agent : Nat) (w : Word) : EventEffect e (regWrite agent .src w) { e with src := w }
  | dst (agent : Nat) (w : Word) : EventEffect e (regWrite agent .dst w) { e with dst := w }
  | pid (agent : Nat) (w : Word) : EventEffect e (regWrite agent .pid w) { e with pid := w }
  | reads (agent : Nat) (n : Width) (off : Offset) : EventEffect e (.access agent (.read n off)) e
  | window (agent : Nat) (off : Offset) (v : Value) (k : Nat) (hk : windowIndex v.width off = some k) :
      EventEffect e (.access agent (.write off v)) { e with pkt := memWrite e.pkt k v }
  | raises (agent : Nat) (a : Access) (c : ErrorCode) (info : Word) :
      EventEffect e (.access agent a) (raiseError c info e)

/-- The same of a 32-bit write to a register. -/
theorem writeReg_effect {r : Reg} {w : Word} {s t : State} (agent : Nat) (h : writeReg r w s = .next t) :
    EventEffect s.engine (regWrite agent r w) t.engine := by
  obtain ⟨rfl, hx⟩ | ⟨rfl, rfl⟩ | ⟨rfl, rfl⟩ | ⟨rfl, rfl⟩ | ⟨rfl, rfl⟩ | ⟨rfl, rfl⟩ | ⟨-, rfl⟩ := writeReg_cases h
  · obtain ⟨c, -, rfl⟩ | ⟨i, hi, hx⟩ := execute_cases hx
    · exact .raises _ _ _ _
    · exact .runs _ _ i _ hi (exec_effect hx)
  · exact .status _ _
  · exact .data _ _
  · exact .src _ _
  · exact .dst _ _
  · exact .pid _ _
  · exact .raises _ _ _ _

/-- Every event's next engine is one of these. -/
theorem performEvent_effect {ev : PortEvent} {s t : State} (h : performEvent ev s = .next t) :
    EventEffect s.engine ev t.engine := by
  cases ev with
  | reset =>
    cases h
    exact .resets
  | access agent a =>
    obtain ⟨n, off, rfl, rfl⟩ | ⟨r, w, rfl, hw⟩ | ⟨off, v, k, rfl, -, hk, rfl⟩ | ⟨off, v, -, -, -, rfl⟩ := access_cases h
    · rw [withEngine_engine]
      obtain he | he := hostRead_engine off n s.engine <;> rw [he]
      · exact .reads _ _ _
      · exact .raises _ _ _ _
    · exact writeReg_effect agent hw
    · exact .window _ _ _ _ hk
    · exact .raises _ _ _ _

/-- The events that clear `ERR`: reset, and a `STATUS` write with bit 3 set (spec/10_state.md R30). -/
def ClearsError (ev : PortEvent) : Prop := ev = .reset ∨ ∃ agent w, ev = regWrite agent .status w ∧ w.getLsbD 3 = true

section

variable {e e' : Engine} {ev : PortEvent}

/-- An event that changes an operand register is reset or the write to it (spec/10_state.md R22 to R25). -/
theorem EventEffect.operands_changed (h : EventEffect e ev e') (hr : ev ≠ .reset) :
    (e'.data ≠ e.data → ∃ agent v, ev = regWrite agent .data v) ∧
    (e'.src ≠ e.src → ∃ agent v, ev = regWrite agent .src v) ∧
    (e'.dst ≠ e.dst → ∃ agent v, ev = regWrite agent .dst v) ∧
    (e'.pid ≠ e.pid → ∃ agent v, ev = regWrite agent .pid v) := by
  cases h
  case resets => exact absurd rfl hr
  case runs hi =>
    obtain ⟨h1, h2, h3, h4⟩ := hi.operands
    simp [h1, h2, h3, h4]
  case data agent w | src agent w | dst agent w | pid agent w =>
    have hself (r : Reg) : ∃ agent' v, regWrite agent r w = regWrite agent' r v := ⟨agent, w, rfl⟩
    simp [hself]
  all_goals simp [writeStatus_eq]

/-- An event that changes `ZERO` or `CSUM` is reset or a command that writes a result (spec/10_state.md R27). -/
theorem EventEffect.result_changed (h : EventEffect e ev e') (hr : ev ≠ .reset)
    (hne : e'.zero ≠ e.zero ∨ e'.csum ≠ e.csum) : ∃ agent w i, ev = regWrite agent .cmd w ∧ decode w = .ok i ∧
      (i = .final ∨ i = .insicmp ∨ i = .insip ∨ ∃ off len, i = .csumbuf off len) := by
  cases h
  case resets => exact absurd rfl hr
  case runs agent w i hw hi => exact ⟨agent, w, i, rfl, hw, hi.result_changed hne⟩
  all_goals simp [writeStatus_eq] at hne

/-- An event that clears `OVF` is reset, CLR, or a `STATUS` write with bit 1 set (spec/10_state.md R28). -/
theorem EventEffect.ovf_cleared (h : EventEffect e ev e') (he : e.ovf = true) (he' : e'.ovf = false) :
    ev = .reset ∨ (∃ agent, ev = regWrite agent .cmd 0x00000001) ∨
      ∃ agent v, ev = regWrite agent .status v ∧ v.getLsbD 1 = true := by
  cases h
  case resets => exact .inl rfl
  case runs agent w i hw hi =>
    obtain rfl := hi.ovf_cleared he he'
    obtain rfl := encode_of_decode hw
    exact .inr (.inl ⟨agent, rfl⟩)
  case status agent w => exact .inr (.inr ⟨agent, w, rfl, by simpa [writeStatus_eq, he] using he'⟩)
  all_goals simp [he] at he'

/-- An event that sets `OVF` is a write to `CMD` of a feed or of FINAL (spec/10_state.md R28). -/
theorem EventEffect.ovf_set (h : EventEffect e ev e') (he : e.ovf = false) (he' : e'.ovf = true) :
    ∃ agent w, ev = regWrite agent .cmd w ∧ (w = 0x00000002 ∨ w = 0x00000003 ∨ w = 0x00000004 ∨ w = 0x00000005) := by
  cases h
  case runs agent w i hw hi =>
    refine ⟨agent, w, rfl, ?_⟩
    obtain rfl := encode_of_decode hw
    obtain rfl | rfl | rfl | rfl := hi.ovf_set he he' <;> decide
  case resets => cases he'
  all_goals simp [writeStatus_eq, he] at he'

/-- Once set, `ERR` stays until an event that clears it (spec/10_state.md R30). -/
theorem EventEffect.err_stays (h : EventEffect e ev e') (hc : ¬ClearsError ev) (he : e.err = true) : e'.err = true := by
  cases h
  case resets => exact absurd (.inl rfl) hc
  case runs hi => exact hi.err_stays he
  case status agent w =>
    have h3 : w.getLsbD 3 = false := by
      by_contra h3
      exact hc (.inr ⟨agent, w, rfl, by simpa using h3⟩)
    rw [writeStatus_eq, he, h3]
    rfl
  all_goals simp [he]

end

/-- A run that takes no event that clears `ERR` and ends with it clear began with it clear (spec/60_exceptions.md R209). -/
theorem runEvents_err_clear {es : List PortEvent} {s t : State} (hc : ∀ ev ∈ es, ¬ClearsError ev)
    (h : runEvents es s = .next t) (ht : t.engine.err = false) : s.engine.err = false := by
  induction es generalizing s with
  | nil =>
    cases h
    exact ht
  | cons ev es ih =>
    obtain ⟨hev, hes⟩ := List.forall_mem_cons.mp hc
    obtain ⟨u, hu⟩ := performEvent_next ev s
    have hclear : u.engine.err = false := ih hes (runEvents_cons hu ▸ h)
    by_contra hs
    simp [(performEvent_effect hu).err_stays hev (by simpa using hs)] at hclear

/-! ## The commands with a check of their own, where it fails -/

/-- CSUMBUF of a region that does not lie in the buffer (spec/40_checksum_engine.md R113). -/
theorem exec_csumbuf_outside {off len : Nat} (s : State) (h : 28 < off + len) :
    exec (.csumbuf off len) s = .next (s.withEngine (raiseError .range (encode (.csumbuf off len)) s.engine)) := by
  have hr : Config.pktLen < off + len := h
  simp only [exec, execCsumbuf, hr, if_true]

/-- FSET of a reserved field id (spec/42_header_builder.md R150). -/
theorem exec_fset_reserved {fid : Nat} (s : State) (h : 15 < fid) :
    exec (.fset fid) s = .next (s.withEngine (raiseError .badField (encode (.fset fid)) s.engine)) := by
  simp only [exec, execFset, (fieldOfId_none fid).mpr h]

/-- FSET of a value too wide for the field (spec/42_header_builder.md R150). -/
theorem exec_fset_wide {fid : Nat} {f : Field} (s : State) (hf : fieldOfId fid = some f)
    (hv : fitsField f s.engine.data = false) :
    exec (.fset fid) s = .next (s.withEngine (raiseError .value (encode (.fset fid)) s.engine)) := by
  simp only [exec, execFset, hf, hv, if_true]

/-- FGET of a reserved field id (spec/42_header_builder.md R160). -/
theorem exec_fget_reserved {fid : Nat} (s : State) (h : 15 < fid) :
    exec (.fget fid) s = .next (s.withEngine (raiseError .badField (encode (.fget fid)) s.engine)) := by
  simp only [exec, execFget, (fieldOfId_none fid).mpr h]

/-- A command that writes the buffer alone, whatever it writes (spec/10_state.md R43). -/
theorem store_frame (s : State) (m : Memory) :
    { (s.withEngine { s.engine with pkt := m }).engine with pkt := s.engine.pkt } = s.engine := rfl

/-- All that installing a checksum can change is `CSUM`, `ZERO` and the buffer (spec/10_state.md R43). -/
theorem installChecksum_frame (s : State) (a off len : Nat) :
    { (s.withEngine (installChecksum a off len s.engine)).engine with
      csum := s.engine.csum, zero := s.engine.zero, pkt := s.engine.pkt } = s.engine := by
  ext <;> simp [installChecksum]

/-- Installing a checksum leaves every byte outside its field (spec/43_checksum_install.md R170, R172). -/
theorem read_installChecksum_outside {a k : Nat} (off len : Nat) {e : Engine} (hlo : k ≠ a) (hhi : k ≠ a + 1) :
    (installChecksum a off len e).pkt.read k = e.pkt.read k := by
  simp only [read_installChecksum, if_neg hlo, if_neg hhi]

/-! ## Results and reads of the registers -/

/-- A result as it stands in `ZERO` and `CSUM` (spec/10_state.md R27, R34). -/
theorem setResult_zero_iff_csum (r : Half) (e : Engine) : (setResult r e).zero = decide ((setResult r e).csum = 0) ∧
    (setResult r e).csum.extractLsb' 16 16 = 0 := by
  have hr := r.isLt
  constructor
  · rw [setResult_zero, setResult_csum, decide_eq_decide, ← BitVec.toNat_inj, ← BitVec.toNat_inj, toNat_wide]
    rfl
  · apply BitVec.eq_of_toNat_eq
    rw [setResult_csum, toNat_field, toNat_wide]
    exact (Nat.mod_eq_of_lt (by omega)).trans (Nat.div_eq_of_lt hr)

/-- A 32-bit read of a register returns it and changes nothing (spec/20_memory.md R59). -/
theorem perform_regRead (agent : Nat) (r : Reg) (s : State) :
    performEvent (regRead agent r) s = .next (s.replied agent (.word (s.engine.readReg r))) := by
  rw [regRead, perform_read, hostRead_reg _ (regAt_regOffset r)]
  rfl

/-- The wire length is the number its two bytes are in network byte order (spec/10_state.md R38). -/
theorem wirelen_toNat (e : Engine) : e.wirelen.toNat = 256 * (e.pkt.read 2).toNat + (e.pkt.read 3).toNat := by
  rw [Engine.wirelen, toNat_wide, memRead16, toNat_word_of_bytes]

/-- The field `IP_LEN` is the wire length (spec/10_state.md R38). -/
theorem fieldRead_ipLen (e : Engine) : fieldRead e.pkt .ipLen = e.wirelen := rfl

/-- The packet to send, byte by byte (spec/43_checksum_install.md R175). -/
theorem wirePacket_eq (e : Engine) : wirePacket e =
    if e.wirelen.toNat ≤ 28 then some ((List.range e.wirelen.toNat).map e.pkt.read) else none := by
  simp only [wirePacket, Memory.region, Nat.zero_add]
  rfl

end Sys2Proof.Machine

open Sys2Proof.Machine

/-- Settles O18, from what each event can change. -/
theorem operandRegistersBelongToTheHost : Obligations.OperandRegistersBelongToTheHost := by
  unfold Obligations.OperandRegistersBelongToTheHost
  refine ⟨fun s agent v r hr => ?_, fun s t ev h hr => (performEvent_effect h).operands_changed hr⟩
  simp only [List.mem_cons, List.not_mem_nil, or_false] at hr
  obtain rfl | rfl | rfl | rfl := hr <;> exact ⟨_, rfl, rfl⟩

/-- Settles O27, from what each command and each event can do to `OVF`. -/
theorem overflowFlagIsSticky : Obligations.OverflowFlagIsSticky := by
  unfold Obligations.OverflowFlagIsSticky
  refine ⟨fun s => ⟨_, rfl, rfl⟩, feedByte_ovf, fun s t h => ?_, fun s t ev h => (performEvent_effect h).ovf_cleared,
    fun s t ev h => (performEvent_effect h).ovf_set, fun s agent v hv => ?_⟩
  · cases h
    exact finish_ovf s.engine
  · rw [step_waiting, perform_regWrite]
    exact ⟨_, rfl, by simp [writeStatus_eq, hv]⟩

/-- Settles O28: from the end of the run back to its start, by induction on each part. -/
theorem cleanErrorFlagMeansNoAccessErred : Obligations.CleanErrorFlagMeansNoAccessErred := by
  unfold Obligations.CleanErrorFlagMeansNoAccessErred
  intro es fs s t u hev hs ht hu
  have hkeeps : ∀ ev ∈ es ++ fs, ¬ClearsError ev := by
    rintro ev hmem (rfl | ⟨agent, w, rfl, hw⟩)
    · exact (hev _ hmem).1 rfl
    · exact absurd hw (by rw [(hev _ hmem).2 agent w rfl]; decide)
  obtain ⟨hes, hfs⟩ := List.forall_mem_append.mp hkeeps
  have hclear := runEvents_err_clear hfs ht hu
  exact ⟨hclear, runEvents_err_clear hes hs hclear⟩

/-- Settles O44, from what each event can do to the result. -/
theorem zeroFlagFollowsTheChecksumResult : Obligations.ZeroFlagFollowsTheChecksumResult := by
  unfold Obligations.ZeroFlagFollowsTheChecksumResult
  refine ⟨rfl, fun s t ev h hr => (performEvent_effect h).result_changed hr, fun s i hi => ?_⟩
  obtain rfl | rfl | rfl | ⟨off, len, rfl, hin⟩ := hi
  · exact ⟨_, rfl, setResult_zero_iff_csum _ _⟩
  · exact ⟨_, rfl, setResult_zero_iff_csum _ _⟩
  · exact ⟨_, rfl, setResult_zero_iff_csum _ _⟩
  · exact ⟨_, exec_csumbuf_inside s hin, setResult_zero_iff_csum _ _⟩

/-- Settles O55: the two bytes, read as a register, as a field and as the length of the packet. -/
theorem wirelenIsTheTotalLengthField : Obligations.WirelenIsTheTotalLengthField := by
  unfold Obligations.WirelenIsTheTotalLengthField
  intro s agent
  simp only [← wirelen_toNat, BitVec.ofNat_toNat, BitVec.setWidth_eq]
  refine ⟨perform_regRead agent .wirelen s, ⟨_, exec_fget_field s (f := .ipLen) rfl, fieldRead_ipLen _⟩, fun hle => ?_,
    fun hlt => ?_⟩
  · rw [wirePacket_eq, if_pos hle]
  · rw [wirePacket_eq, if_neg (Nat.not_le.mpr hlt)]

/-- Settles O56, command by command; a command with a check of its own has the error latch alone where the check fails. -/
theorem commandsWriteOnlyTheirState : Obligations.CommandsWriteOnlyTheirState := by
  unfold Obligations.CommandsWriteOnlyTheirState
  intro i s t h
  have hnext {u : State} (hu : exec i s = .next u) : t = u := Host.Outcome.next.inj (h.symm.trans hu)
  obtain ⟨e, he⟩ := exec_next i s
  refine ⟨by rw [hnext he, withEngine_pending], by rw [hnext he, withEngine_replies], ?_⟩
  cases i
  case nop | clr | final =>
    cases h
    rfl
  case feed8 | feed16 | feed32 =>
    cases h
    exact feedBytes_frame _ _
  case pktz =>
    rw [hnext (exec_pktz s)]
    refine ⟨store_frame s _, fun k hk => ?_⟩
    rw [withEngine_engine, read_zeroBuffer, if_neg (Nat.not_lt.mpr hk)]
  case build =>
    rw [hnext (exec_build s)]
    refine ⟨store_frame s _, fun k hk => ?_⟩
    rw [withEngine_engine, read_buildHeaders]
    obtain rfl | rfl | hk := hk
    · rfl
    · rfl
    · simp (disch := omega) only [if_neg]
  case insicmp =>
    rw [hnext (exec_insicmp s)]
    exact ⟨installChecksum_frame _ _ _ _, fun k => read_installChecksum_outside _ _⟩
  case insip =>
    rw [hnext (exec_insip s)]
    exact ⟨installChecksum_frame _ _ _ _, fun k => read_installChecksum_outside _ _⟩
  case csumbuf off len =>
    refine ⟨fun hout => ?_, fun hin => ?_⟩
    · rw [hnext (exec_csumbuf_outside s hout)]
      exact raiseError_frame _ _ _
    · rw [hnext (exec_csumbuf_inside s hin)]
      rfl
  case fset fid =>
    refine ⟨fun hres => ?_, fun f hf => ?_⟩
    · rw [hnext (exec_fset_reserved s hres)]
      exact raiseError_frame _ _ _
    · have hid := (fieldOfId_iff fid f).mpr hf
      refine ⟨fun hwide => ?_, fun hfits => ?_⟩
      · rw [hnext (exec_fset_wide s hid (decide_eq_false (Nat.not_lt.mpr hwide)))]
        exact raiseError_frame _ _ _
      · rw [hnext (exec_fset_fits s hid (decide_eq_true hfits))]
        refine ⟨store_frame s _, ?_, ?_, fun k => read_fieldWrite_outside _ _ _⟩
        · rintro rfl
          exact low_nibble_fieldWrite_ipVer _ _
        · rintro rfl
          exact high_nibble_fieldWrite_ipIhl _ _
  case fget fid =>
    refine ⟨fun hres => ?_, fun hle => ?_⟩
    · rw [hnext (exec_fget_reserved s hres)]
      exact raiseError_frame _ _ _
    · cases hf : fieldOfId fid with
      | none => exact absurd ((fieldOfId_none fid).mp hf) (Nat.not_lt.mpr hle)
      | some f =>
        rw [hnext (exec_fget_field s hf)]
        rfl

/-- Settles O5: a write to `CMD` is `Execute` of the word, and a read of it is a legal read. -/
theorem commandWriteRunsTheDecodedCommand : Obligations.CommandWriteRunsTheDecodedCommand := by
  unfold Obligations.CommandWriteRunsTheDecodedCommand
  intro s agent w
  have hwrite : step (s.waiting (.access agent (.write 0x00 (.word w)))) = execute w s := perform_regWrite agent .cmd w s
  rw [hwrite]
  refine ⟨fun i hi => ?_, fun hd => ?_, fun hd => ?_, perform_regRead agent .cmd s⟩
  · simp only [execute, hi]
  · simp only [execute, hd, causeOf]
  · simp only [execute, hd, causeOf]

/-- Settles O19: a read answers either agent the same value, and a write does not look at the agent. -/
theorem engineDoesNotDistinguishAgents : Obligations.EngineDoesNotDistinguishAgents := by
  unfold Obligations.EngineDoesNotDistinguishAgents
  intro s t a b acc h
  cases acc with
  | read n off =>
    cases h
    exact ⟨_, perform_read s b off n, rfl, rfl⟩
  | write off v => exact ⟨t, h, rfl, rfl⟩

end

section
/-! Host accesses (spec/20_memory.md R51 to R69): what a step does with a read or a write at each offset, what the window returns
after a word was written there, and what happens when an access is made twice. -/

namespace Sys2Proof.Machine

/-! ## An access that reaches no register -/

theorem regAt_none {n : Width} {off : Offset} (h : ¬(n = .word ∧ off.val % 4 = 0 ∧ off.val ≤ 0x2C)) :
    regAt n off = none := by
  rwa [← regAt_isSome, Option.not_isSome_iff_eq_none] at h

theorem regAt_of_windowIndex {n : Width} {off : Offset} {k : Nat} (h : windowIndex n off = some k) : regAt n off = none := by
  unfold windowIndex at h
  split at h
  · next hc => exact regAt_window hc.1
  · cases h

section

variable (s : State) (agent : Nat) {n : Width} {off : Offset} {v : Value} {k : Nat}

/-- A legal window read returns the bytes there and changes nothing (spec/20_memory.md R59). -/
theorem perform_read_window (h : windowIndex n off = some k) :
    performEvent (.access agent (.read n off)) s = .next (s.replied agent (memRead s.engine.pkt k n)) := by
  rw [perform_read, hostRead_window _ (regAt_of_windowIndex h) h]
  rfl

/-- A bad read returns the zero of its width (spec/20_memory.md R58). -/
theorem perform_read_bad (hr : regAt n off = none) (hk : windowIndex n off = none) :
    performEvent (.access agent (.read n off)) s =
      .next ((s.replied agent (Value.zeroOf n)).withEngine (badAccess false n off s.engine)) := by
  rw [perform_read, hostRead_bad _ hr hk]

/-- A legal window write stores the value and changes nothing else (spec/20_memory.md R60). -/
theorem perform_write_window (h : windowIndex v.width off = some k) :
    performEvent (.access agent (.write off v)) s =
      .next (s.withEngine { s.engine with pkt := memWrite s.engine.pkt k v }) := by
  rw [perform_write, hostWrite_window _ (regAt_of_windowIndex h) h]

theorem perform_write_bad (hr : regAt v.width off = none) (hk : windowIndex v.width off = none) :
    performEvent (.access agent (.write off v)) s = .next (s.withEngine (badAccess true v.width off s.engine)) := by
  rw [perform_write, hostWrite_bad _ hr hk]

end

/-! ## The registers -/

/-- `STATUS` with `ODD` as the low bit of `CNT` (spec/10_state.md R29). -/
theorem statusWord_eq (e : Engine) : e.statusWord =
    0#16 ++ (e.pend ++ (e.ecode ++ (BitVec.ofBool e.err ++ (e.cnt.extractLsb' 0 1 ++
      (BitVec.ofBool e.ovf ++ BitVec.ofBool e.zero))))) := by
  have hodd : e.cnt.extractLsb' 0 1 = BitVec.ofBool e.odd := by
    ext i hi
    obtain rfl : i = 0 := by omega
    simp [Engine.odd]
  rw [hodd, Engine.statusWord]

/-- The twelve registers in the order of their offsets (spec/20_memory.md R50). -/
def registers : List Reg :=
  [.cmd, .data, .status, .csum, .acc, .cnt, .src, .dst, .pid, .wirelen, .fval, .einfo]

/-- The registers that a host only reads (spec/20_memory.md R56). -/
def readOnlyRegisters : List Reg := [.csum, .acc, .cnt, .wirelen, .fval, .einfo]

/-- A write to a read-only register is a bad access (spec/20_memory.md R56). -/
theorem writeReg_readOnly {r : Reg} (w : Word) (s : State) (h : r ∈ readOnlyRegisters) :
    writeReg r w s = .next (s.withEngine (badAccess true .word (regOffset r) s.engine)) := by
  cases r
  case cmd | data | status | src | dst | pid => exact absurd h (by decide)
  all_goals rfl

/-! ## The window after a word was written -/

section

variable (m : Memory) (k : Nat) (v : Word)

theorem memRead_word_memWrite_word : memRead (memWrite m k (.word v)) k .word = .word v := by
  simpa [memRead, memRead32, read_memWrite_word] using word_of_bytes v

theorem memRead_byte_memWrite_word : memRead (memWrite m k (.word v)) k .byte = .byte (v.extractLsb' 24 8) := by
  simp [memRead, read_memWrite_word]

/-- The low half of a word stands two bytes on (spec/20_memory.md R62). -/
theorem memRead_half_memWrite_word :
    memRead (memWrite m k (.word v)) (k + 2) .half = .half (v.extractLsb' 0 16) := by
  have hlow : (v.extractLsb' 8 8 ++ v.extractLsb' 0 8 : Half) = v.extractLsb' 0 16 := by
    apply BitVec.eq_of_toNat_eq
    simp only [toNat_append_eq, toNat_field]
    omega
  simp [memRead, memRead16, read_memWrite_word, hlow]

end

/-! ## An access made again (spec/20_memory.md R65) -/

theorem runEvents_singleton (ev : PortEvent) (s : State) : runEvents [ev] s = performEvent ev s := by
  cases h : performEvent ev s <;> simp [runEvents, h]

/-- The first bad access has set `ERR`, so the second records nothing. -/
theorem badAccess_again (wr : Bool) (n : Width) (off : Offset) (e : Engine) :
    badAccess wr n off (badAccess wr n off e) = badAccess wr n off e :=
  raiseError_later _ _ _ (raiseError_err _ _ _)

theorem writeStatus_again (w : Word) (e : Engine) : writeStatus w (writeStatus w e) = writeStatus w e := by
  simp only [writeStatus_eq, Bool.and_assoc, Bool.and_self]
  split <;> rfl

/-- The canonical form makes two buffers with the same bytes the same. -/
theorem memWrite_again {m : Memory} {k : Nat} {v : Value} (hm : m.wf = true) (hk : k + v.width.bytes ≤ Config.pktLen) :
    memWrite (memWrite m k v) k v = memWrite m k v := by
  have hwf := wf_memWrite hm hk
  refine wf_ext (wf_memWrite hwf hk) hwf fun j => ?_
  simp only [memWrite, read_writeBytes]
  split <;> rfl

theorem hostRead_engine_again (off : Offset) (n : Width) (e : Engine) :
    (hostRead off n (hostRead off n e).2).2 = (hostRead off n e).2 := by
  obtain h | h := hostRead_engine off n e
  · rw [h, h]
  · rw [h]
    obtain h' | h' := hostRead_engine off n (badAccess false n off e)
    · exact h'
    · rw [h', badAccess_again]

/-- A 32-bit write to a register but `CMD`, made again in the state it left, changes nothing. -/
theorem writeReg_again {r : Reg} {w : Word} {s t : State} (hr : r ≠ .cmd) (h : writeReg r w s = .next t) :
    writeReg r w t = .next t := by
  cases r
  case cmd => exact absurd rfl hr
  case data | src | dst | pid =>
    cases h
    rfl
  case status =>
    cases h
    simp [writeReg, writeStatus_again]
  all_goals
    cases h
    simp [writeReg, badAccess_again]

/-- A write that is no command, made again in the state it left, changes nothing. -/
theorem perform_write_again {agent : Nat} {off : Offset} {v : Value} {s t : State} (hs : s.engine.pkt.wf = true)
    (hcmd : ∀ w, Access.write off v ≠ .write 0x00 (.word w)) (h : performEvent (.access agent (.write off v)) s = .next t) :
    performEvent (.access agent (.write off v)) t = .next t := by
  rw [perform_write] at h ⊢
  obtain ⟨r, w, rfl, rfl, -⟩ | ⟨k, hr, hk, hw⟩ | ⟨hr, hk, hw⟩ := hostWrite_cases off v s
  · rw [hostWrite_reg] at h ⊢
    refine writeReg_again ?_ h
    rintro rfl
    exact hcmd w rfl
  · rw [hw] at h
    cases h
    simp [hostWrite_window _ hr hk, memWrite_again hs (windowIndex_bound hk)]
  · rw [hw] at h
    cases h
    simp [hostWrite_bad _ hr hk, badAccess_again]

/-! ## Platform addresses -/

/-- The address of an offset is that offset (spec/20_memory.md R51). -/
theorem offsetAt_add (base : Nat) (off : Offset) : offsetAt base (base + off.val) = some off := by
  have hin : base ≤ base + off.val ∧ base + off.val - base < 0x60 := by omega
  simp [offsetAt, hin]

theorem offsetAt_outside {base addr : Nat} (h : addr < base ∨ base + 0x60 ≤ addr) : offsetAt base addr = none := by
  have hout : ¬(base ≤ addr ∧ addr - base < 0x60) := by omega
  exact dif_neg hout

theorem platformAccess_outside {base : Nat} {p : PlatformAccess} (h : p.addr < base ∨ base + 0x60 ≤ p.addr) :
    platformAccess base p = none := by
  cases p with
  | read n addr => exact congrArg (Option.map _) (offsetAt_outside h)
  | write addr v => exact congrArg (Option.map _) (offsetAt_outside h)

end Sys2Proof.Machine

open Sys2Proof.Machine

/-- Settles O13: a register, the window, or neither. -/
theorem hostReadFollowsTheRegisterMap : Obligations.HostReadFollowsTheRegisterMap := by
  unfold Obligations.HostReadFollowsTheRegisterMap
  intro s agent n off e isReg isWin
  rw [← statusWord_eq, step_waiting]
  refine ⟨fun p hp hreg hoff => ?_, fun hwin => ?_, fun hreg hwin => ?_⟩
  · have hmap : p ∈ registers.map fun r => ((regOffset r).val, e.readReg r) := hp
    obtain ⟨r, -, rfl⟩ := List.mem_map.mp hmap
    obtain ⟨rfl, -⟩ := hreg
    obtain rfl : off = regOffset r := Fin.ext hoff
    exact perform_regRead agent r s
  · exact perform_read_window s agent (windowIndex_some hwin)
  · rw [perform_read_bad s agent (regAt_none hreg) (windowIndex_none hwin)]
    cases n <;> rfl

/-- Settles O14: register by register, then the window and the offsets that are neither. -/
theorem hostWriteFollowsTheRegisterMap : Obligations.HostWriteFollowsTheRegisterMap := by
  unfold Obligations.HostWriteFollowsTheRegisterMap
  intro s agent off v e after isWin
  refine ⟨?_, fun hwin => ?_, fun hreg hwin => ?_⟩
  · rintro w rfl
    have hafter (r : Reg) (h : off = regOffset r) : after = writeReg r w s := by
      subst h
      exact perform_regWrite agent r w s
    refine ⟨hafter .cmd, hafter .data, ?_, hafter .src, hafter .dst, hafter .pid, fun hoff => ?_⟩
    · rw [← writeStatus_eq]
      exact hafter .status
    · have hmap : off ∈ readOnlyRegisters.map regOffset := hoff
      obtain ⟨r, hr, rfl⟩ := List.mem_map.mp hmap
      exact (hafter r rfl).trans (writeReg_readOnly w s hr)
  · exact perform_write_window s agent (windowIndex_some hwin)
  · exact perform_write_bad s agent (regAt_none hreg) (windowIndex_none hwin)

/-- Settles O16: the write, then the three reads of the buffer it left. -/
theorem windowWordReadsBackAsHalfAndByte : Obligations.WindowWordReadsBackAsHalfAndByte := by
  unfold Obligations.WindowWordReadsBackAsHalfAndByte
  intro s agent v off off2 hlo halign hhi hoff2
  have hword : windowIndex .word off = some (off.val - 0x40) := windowIndex_some (by simp only [Width.bytes]; omega)
  have hbyte : windowIndex .byte off = some (off.val - 0x40) := windowIndex_some (by simp only [Width.bytes]; omega)
  have hhalf : windowIndex .half off2 = some (off.val - 0x40 + 2) := by
    rw [windowIndex_some (by simp only [Width.bytes]; omega)]
    congr 1
    omega
  rw [runEvents_cons (perform_write_window (v := .word v) s agent hword), runEvents_cons (perform_read_window _ agent hhalf),
    runEvents_cons (perform_read_window _ agent hbyte), runEvents_cons (perform_read_window _ agent hword)]
  refine ⟨_, rfl, ?_⟩
  simp [State.replied, memRead_word_memWrite_word, memRead_byte_memWrite_word, memRead_half_memWrite_word]

/-- Settles O17: a read made again finds what the first one left, and a write that is no command changes nothing more. -/
theorem accessesOtherThanCommandsAreIdempotent : Obligations.AccessesOtherThanCommandsAreIdempotent := by
  unfold Obligations.AccessesOtherThanCommandsAreIdempotent
  intro s t agent a hinv hcmd h
  simp only [runEvents_singleton] at h ⊢
  cases a with
  | read n off =>
    cases h
    refine ⟨_, [⟨agent, (hostRead off n s.engine).1⟩], perform_read _ agent off n, ?_, rfl, ?_⟩
    · exact hostRead_engine_again off n s.engine
    · simp [State.replied, hostRead_again]
  | write off v =>
    obtain ⟨e, he⟩ := hostWrite_next off v s
    have hreplies : t.replies = s.replies := by
      cases he.symm.trans h
      rfl
    exact ⟨t, [], perform_write_again hinv.pkt_wf hcmd h, rfl, hreplies, rfl⟩

/-- Settles O6: the idle step, or the first waiting event. -/
theorem everyStepCompletes : Obligations.EveryStepCompletes := by
  unfold Obligations.EveryStepCompletes
  rintro ⟨e, _ | ⟨ev, rest⟩, replies⟩
  · exact ⟨_, step_of_pending_nil rfl⟩
  · exact performEvent_next ev ⟨e, rest, replies⟩

/-- Settles O20, from the offset of an address. -/
theorem platformAddressesAreOffsetsFromTheBase : Obligations.PlatformAddressesAreOffsetsFromTheBase := by
  unfold Obligations.PlatformAddressesAreOffsetsFromTheBase
  intro base agent s
  refine ⟨fun n off => ?_, fun off v => ?_, fun p hout => ?_⟩
  · simp [platformStep, platformAccess, offsetAt_add]
  · simp [platformStep, platformAccess, offsetAt_add]
  · simp [platformStep, platformAccess_outside hout]

end

section
/-! The command encoding (spec/30_encoding.md R80 to R85): the decoder's three answers, each by the fields of the word, and from
them the round trip between words and commands and the checks of `Execute(w)`. -/

namespace Sys2Proof.Machine

/-! ## The opcode map and the fields each opcode uses -/

/-- The opcodes outside the map are those R82 does not list, whatever the operands. -/
theorem instrOfOp_eq_none (op a b : Nat) : instrOfOp op a b = none ↔
    op ∉ [0x00, 0x01, 0x02, 0x03, 0x04, 0x05, 0x10, 0x11, 0x12, 0x13, 0x14, 0x20, 0x21] := by
  unfold instrOfOp
  split <;> simp_all

theorem usesA_eq_false (op : Nat) : usesA op = false ↔ op ∉ [0x14, 0x20, 0x21] := by
  simp [usesA, and_assoc]

theorem usesB_eq_false (op : Nat) : usesB op = false ↔ op ≠ 0x14 := by
  simp [usesB]

/-- Operands that fit their fields make a well-formed command, whatever the opcode. -/
theorem wellFormed_of_instrOfOp {op a b : Nat} {i : Instr} (ha : a < 256) (hb : b < 256)
    (h : instrOfOp op a b = some i) : i.wellFormed = true := by
  unfold instrOfOp at h
  split at h <;> cases h
  -- the rows with operands: CSUMBUF, then FSET and FGET
  case h_11 => simp [Instr.wellFormed, ha, hb]
  case h_12 | h_13 => simp [Instr.wellFormed, ha]
  all_goals rfl

/-! ## The decoder's answers -/

section

variable {w : Word} {i : Instr}

/-- The opcode check comes first: no other field matters (R84). -/
theorem decode_of_unknown (h : instrOfOp (wordOp w) (wordA w) (wordB w) = none) : decode w = .error .illegalOp := by
  simp only [decode, h]

/-- The reserved-field check of a known opcode (R84). -/
theorem decode_of_reserved (h : instrOfOp (wordOp w) (wordA w) (wordB w) = some i)
    (hr : wordRsv w ≠ 0 ∨ (usesA (wordOp w) = false ∧ wordA w ≠ 0) ∨ (usesB (wordOp w) = false ∧ wordB w ≠ 0)) :
    decode w = .error .reservedField := by
  simp only [decode, h, if_pos hr]

/-- A known opcode whose reserved and unused fields are zero decodes (R84): the converse of `decode_ok`. -/
theorem decode_of_fields (h : instrOfOp (wordOp w) (wordA w) (wordB w) = some i) (hr : wordRsv w = 0)
    (ha : usesA (wordOp w) = false → wordA w = 0) (hb : usesB (wordOp w) = false → wordB w = 0) : decode w = .ok i := by
  have hn : ¬(wordRsv w ≠ 0 ∨ (usesA (wordOp w) = false ∧ wordA w ≠ 0) ∨ (usesB (wordOp w) = false ∧ wordB w ≠ 0)) := by
    tauto
  simp only [decode, h, if_neg hn]

/-! ## Words and commands -/

/-- Every command's word has the layout of R80 to R82. -/
theorem wordLayout (i : Instr) : Laws.WordLayout.Statement i := by
  cases i
  case nop => exact Laws.WordLayout.nop
  case clr => exact Laws.WordLayout.clr
  case feed8 => exact Laws.WordLayout.feed8
  case feed16 => exact Laws.WordLayout.feed16
  case feed32 => exact Laws.WordLayout.feed32
  case final => exact Laws.WordLayout.final
  case pktz => exact Laws.WordLayout.pktz
  case build => exact Laws.WordLayout.build
  case insicmp => exact Laws.WordLayout.insicmp
  case insip => exact Laws.WordLayout.insip
  case csumbuf off len => exact Laws.WordLayout.csumbuf off len
  case fset fid => exact Laws.WordLayout.fset fid
  case fget fid => exact Laws.WordLayout.fget fid

/-- The word of a well-formed command decodes to it: the fields of the word are the command's opcode and operands. -/
theorem decode_encode (hi : i.wellFormed = true) : decode (encode i) = .ok i := by
  obtain ⟨hop, ha, hb, hrsv, hmap, hua, hub⟩ := wordLayout i hi
  rw [← hop, ← ha] at hua
  rw [← hop, ← hb] at hub
  rw [← hop, ← ha, ← hb] at hmap
  exact decode_of_fields hmap hrsv hua hub

/-- `decode_encode` for a word written out. -/
theorem decode_of_encode_eq (hi : i.wellFormed = true) (hw : encode i = w) : decode w = .ok i :=
  hw ▸ decode_encode hi

/-- What decodes is well formed: the fields of a word are 8 bits wide. -/
theorem wellFormed_of_decode (h : decode w = .ok i) : i.wellFormed = true :=
  wellFormed_of_instrOfOp (wordA_lt w) (wordB_lt w) (decode_ok h).1

/-- A decoded command has the opcode and the operands of its word. -/
theorem fields_of_decode (h : decode w = .ok i) :
    (opOf i).toNat = wordOp w ∧ operandA i = wordA w ∧ operandB i = wordB w := by
  obtain ⟨hop, ha, hb, -⟩ := wordLayout i (wellFormed_of_decode h)
  rw [encode_of_decode h] at hop ha hb
  exact ⟨hop.symm, ha.symm, hb.symm⟩

/-! ## Executing a word -/

theorem execute_of_error {c : DecodeError} (s : State) (h : decode w = .error c) :
    execute w s = .next (s.withEngine (raiseError (causeOf c) w s.engine)) := by
  simp only [execute, h]

theorem execute_of_ok (s : State) (h : decode w = .ok i) : execute w s = exec i s := by
  simp only [execute, h]

/-- A command that sets `ERR` has raised one error, with its own word as the record, and done nothing else
(spec/60_exceptions.md R203). -/
theorem exec_raises {s t : State} (h : exec i s = .next t) (hs : s.engine.err = false) (ht : t.engine.err = true) :
    ∃ c, t = s.withEngine (raiseError c (encode i) s.engine) := by
  obtain ⟨_, _, -, -, heq⟩ | ⟨_, -, -, heq⟩ | ⟨_, _, -, -, -, heq⟩ | ⟨_, -, -, heq⟩ | ⟨hsame, -⟩ := exec_error_cases h
  · exact ⟨_, heq⟩
  · exact ⟨_, heq⟩
  · exact ⟨_, heq⟩
  · exact ⟨_, heq⟩
  · simp [hsame, hs] at ht

end

end Sys2Proof.Machine

open Sys2Proof Sys2Proof.Machine

/-- Settles O1, from the layout of a command's word. -/
theorem encodedCommandsDecodeToThemselves : Obligations.EncodedCommandsDecodeToThemselves := by
  unfold Obligations.EncodedCommandsDecodeToThemselves
  intro i hi
  exact decode_encode hi

/-- Settles O2: a word is its four fields, and a decoded command gives each of them back. -/
theorem decodedWordsAreTheEncoding : Obligations.DecodedWordsAreTheEncoding := by
  unfold Obligations.DecodedWordsAreTheEncoding
  intro w i h
  exact ⟨wellFormed_of_decode h, encode_of_decode h⟩

/-- Settles O4, by the decoder's three answers; the error of a command's own check has the command's word as its record. -/
theorem executeChecksOpcodeThenReservedFields : Obligations.ExecuteChecksOpcodeThenReservedFields := by
  unfold Obligations.ExecuteChecksOpcodeThenReservedFields
  intro w s op a b rsv known reserved
  have hmap : known → ∃ i, instrOfOp (wordOp w) (wordA w) (wordB w) = some i := fun hk =>
    Option.ne_none_iff_exists'.mp fun hn => (instrOfOp_eq_none _ _ _).mp hn hk
  have hres : reserved ↔ wordRsv w ≠ 0 ∨ (usesA (wordOp w) = false ∧ wordA w ≠ 0) ∨
      (usesB (wordOp w) = false ∧ wordB w ≠ 0) := by
    rw [usesA_eq_false, usesB_eq_false]
    rfl
  refine ⟨fun hk => ?_, fun hk hr => ?_, fun hk hr => ?_⟩
  · exact execute_of_error s (decode_of_unknown ((instrOfOp_eq_none _ _ _).mpr hk))
  · obtain ⟨i, hi⟩ := hmap hk
    exact execute_of_error s (decode_of_reserved hi (hres.mp hr))
  · obtain ⟨i, hi⟩ := hmap hk
    rw [hres] at hr
    push Not at hr
    obtain ⟨hrsv, ha, hb⟩ := hr
    have hd : decode w = .ok i := decode_of_fields hi hrsv ha hb
    obtain ⟨hop, hopA, hopB⟩ := fields_of_decode hd
    refine ⟨i, hd, hop, hopA, hopB, execute_of_ok s hd, fun t ht hs herr => ?_⟩
    obtain ⟨c, rfl⟩ := exec_raises ht hs herr
    have hframe := raiseError_frame c w s.engine
    rw [hs] at hframe
    rw [encode_of_decode hd, withEngine_engine]
    exact ⟨by rw [raiseError_first c w _ hs], hframe⟩

/-- Settles O3: each word is the encoding of its command. -/
theorem tableWordsDecode : Obligations.TableWordsDecode := by
  unfold Obligations.TableWordsDecode
  and_intros <;> exact decode_of_encode_eq rfl rfl

end

section
/-! The checksum engine's commands (spec/40_checksum_engine.md R101 to R114): a command without operands has one word, bytes are fed
in pairs, and FINAL after any feeds writes what `Checksum` gives. The function itself is read modulo 65535: that is what folding
keeps, and with it whether the value is 0. -/

namespace Sys2Proof.Machine

/-! ## The one word of a command without operands -/

theorem decode_clr : decode 0x00000001 = .ok .clr := decode_of_encode_eq rfl rfl
theorem decode_feed8 : decode 0x00000002 = .ok .feed8 := decode_of_encode_eq rfl rfl
theorem decode_feed16 : decode 0x00000003 = .ok .feed16 := decode_of_encode_eq rfl rfl
theorem decode_feed32 : decode 0x00000004 = .ok .feed32 := decode_of_encode_eq rfl rfl
theorem decode_final : decode 0x00000005 = .ok .final := decode_of_encode_eq rfl rfl

/-- The word of CSUMBUF, field by field (spec/40_checksum_engine.md R113). -/
theorem decode_csumbuf_word (rsv len off : Byte) : decode (rsv ++ (len ++ (off ++ 0x14#8)) : Word) =
    if rsv = 0 then .ok (.csumbuf off.toNat len.toNat) else .error .reservedField := by
  have hfields := fields_of_append rsv len off 0x14#8
  generalize (rsv ++ (len ++ (off ++ 0x14#8)) : Word) = w at hfields ⊢
  obtain ⟨hop, ha, hb, hrsv⟩ := hfields
  have hmap : instrOfOp (wordOp w) (wordA w) (wordB w) = some (.csumbuf off.toNat len.toNat) := by
    rw [hop, ha, hb]
    rfl
  split
  · next h => exact decode_of_fields hmap (by rw [hrsv, h]; rfl) (by rw [hop]; nofun) (by rw [hop]; nofun)
  · next h => exact decode_of_reserved hmap (.inl fun h0 => h (BitVec.eq_of_toNat_eq (hrsv.symm.trans h0)))

/-- A word with the opcode of a command without operands and another bit set is rejected (spec/30_encoding.md R83): if its other
fields were zero too, it would be the command's word. -/
theorem rejectsOtherBits_of_decode {w0 : Word} {i : Instr} (hi : decode w0 = .ok i) (hA : usesA (wordOp w0) = false)
    (hB : usesB (wordOp w0) = false) : RejectsOtherBits w0 := by
  intro w s hop hne
  obtain ⟨hmap, hrsv0, ha0, hb0⟩ := decode_ok hi
  have hop' : wordOp w = wordOp w0 := congrArg BitVec.toNat hop
  obtain ⟨j, hj⟩ : ∃ j, instrOfOp (wordOp w) (wordA w) (wordB w) = some j := by
    refine Option.ne_none_iff_exists'.mp fun hn => ?_
    rw [hop', instrOfOp_eq_none, ← instrOfOp_eq_none _ (wordA w0) (wordB w0), hmap] at hn
    cases hn
  refine execute_of_error s (decode_of_reserved hj ?_)
  by_contra hzero
  rw [hop', hA, hB] at hzero
  push Not at hzero
  obtain ⟨hrsv, ha, hb⟩ := hzero
  apply hne
  rw [word_eq_fields w, word_eq_fields w0, hop', hrsv, ha rfl, hb rfl, hrsv0, ha0 hA, hb0 hB]

/-! ## Adding a word to the accumulator -/

/-- The accumulator after an exact sum lost its carry (spec/40_checksum_engine.md R104). -/
theorem ofNat_acc_add (a : Word) (h : Half) : BitVec.ofNat 32 (a.toNat + h.toNat) = a + h.zeroExtend 32 := by
  apply BitVec.eq_of_toNat_eq
  rw [BitVec.toNat_add, toNat_wide, BitVec.toNat_ofNat]

theorem ofNat_mod_word (n : Nat) : BitVec.ofNat 32 (n % 2 ^ 32) = BitVec.ofNat 32 n := by
  apply BitVec.eq_of_toNat_eq
  rw [BitVec.toNat_ofNat, BitVec.toNat_ofNat, Nat.mod_mod]

/-- Of two additions one after another, one carries out exactly when their exact sum does. -/
theorem carriesOut_add (s n : Nat) :
    (carriesOut s || carriesOut ((BitVec.ofNat 32 s).toNat + n)) = carriesOut (s + n) := by
  simp only [carriesOut, BitVec.toNat_ofNat, ← Bool.decide_or, decide_eq_decide]
  omega

/-! ## Feeding a pair of bytes (spec/40_checksum_engine.md R106) -/

section

variable (b c : Byte) (e : Engine)

/-- Between words, the pair is the word added. -/
theorem feedByte_pair_even (h : e.odd = false) : feedByte c (feedByte b e) = { e with
    acc := BitVec.ofNat 32 (e.acc.toNat + (b ++ c : Half).toNat), pend := 0,
    ovf := e.ovf || carriesOut (e.acc.toNat + (b ++ c : Half).toNat), cnt := e.cnt + 2 } := by
  rw [feedByte_odd c _ (by simp [h]), feedByte_even b e h]
  simp [BitVec.add_assoc]

/-- After an odd byte, the first of the pair completes the waiting word and the second waits. -/
theorem feedByte_pair_odd (h : e.odd = true) : feedByte c (feedByte b e) = { e with
    acc := BitVec.ofNat 32 (e.acc.toNat + (e.pend ++ b : Half).toNat), pend := c,
    ovf := e.ovf || carriesOut (e.acc.toNat + (e.pend ++ b : Half).toNat), cnt := e.cnt + 2 } := by
  rw [feedByte_even c _ (by simp [h]), feedByte_odd b e h]
  simp [BitVec.add_assoc]

end

/-- Two neighbouring bytes of a word are the half there. -/
theorem append_bytes_of_word (d : Word) (lo : Nat) :
    (d.extractLsb' (lo + 8) 8 ++ d.extractLsb' lo 8 : Half) = d.extractLsb' lo 16 := by
  apply BitVec.eq_of_toNat_eq
  simp only [toNat_append_eq, toNat_field, pow_add]
  rw [← Nat.div_div_eq_div_mul]
  omega

/-! ## FINAL -/

/-- FINAL adds the pad of a waiting byte as a number (spec/40_checksum_engine.md R110). -/
theorem finish_eq (e : Engine) :
    let sum := e.acc.toNat + if e.odd = true then 256 * e.pend.toNat else 0
    finish e = setResult (~~~(fold16 (BitVec.ofNat 32 sum))) { e with ovf := e.ovf || carriesOut sum } := by
  have hpad : (e.pend ++ 0#8 : Half).toNat = 256 * e.pend.toNat := toNat_word_of_bytes _ _
  cases h : e.odd
  · simp [finish, h]
  · simp [finish, h, hpad]

/-- FINAL again finds the streaming state that it found before (spec/40_checksum_engine.md R110). -/
theorem finish_again (e : Engine) : finish (finish e) = finish e := by
  ext1 <;> simp [finish, Engine.odd]

/-! ## Streaming is the checksum function (spec/40_checksum_engine.md R108) -/

theorem feedBytes_append (bs cs : List Byte) (e : Engine) : feedBytes (bs ++ cs) e = feedBytes cs (feedBytes bs e) :=
  List.foldl_append

theorem feedBytes_cnt (bs : List Byte) (e : Engine) : (feedBytes bs e).cnt = e.cnt + BitVec.ofNat 32 bs.length := by
  induction bs generalizing e with
  | nil => simp
  | cons b bs ih =>
    rw [feedBytes_cons, ih, feedByte_cnt, List.length_cons, Nat.add_comm, BitVec.ofNat_add, ← BitVec.add_assoc]
    rfl

/-- Bytes fed from a word boundary on, and FINAL: the accumulator's value and the bytes go through the loop of `Checksum`, and some
addition carries out exactly when their exact sum does. -/
theorem finish_feedBytes (bs : List Byte) (e : Engine) (h : e.odd = false) :
    finish (feedBytes bs e) = setResult (~~~(fold16 (sumWords e.acc bs)))
      { feedBytes bs e with ovf := e.ovf || carriesOut (e.acc.toNat + wordSum bs) } := by
  induction bs using wordSum.induct generalizing e with
  | case1 =>
    rw [finish_eq, feedBytes_nil, h]
    simp [sumWords, wordSum]
  | case2 b =>
    have hpad : 256 * b.toNat = (b ++ 0#8 : Half).toNat := (toNat_word_of_bytes b 0).symm
    rw [finish_eq, feedBytes_cons, feedBytes_nil, feedByte_odd_flips, feedByte_even b e h, h]
    simp only [sumWords, wordSum, Bool.not_false, if_true, hpad, ofNat_acc_add]
    rfl
  | case3 b c bs ih =>
    have hpair := feedByte_pair_even b c e h
    have hodd : (feedByte c (feedByte b e)).odd = false := by simp [h]
    rw [feedBytes_cons, feedBytes_cons, ih _ hodd]
    simp only [hpair, sumWords, wordSum, ← toNat_word_of_bytes, ofNat_acc_add]
    rw [Bool.or_assoc, ← ofNat_acc_add, carriesOut_add, Nat.add_assoc]

/-! ## The accesses of a streamed sequence (spec/30_encoding.md R93) -/

theorem feedByte_with_data (b : Byte) (e : Engine) (d : Word) :
    feedByte b { e with data := d } = { feedByte b e with data := d } := by
  cases h : e.odd
  · rw [feedByte_even b e h, feedByte_even b { e with data := d } h]
  · rw [feedByte_odd b e h, feedByte_odd b { e with data := d } h]

/-- Bytes fed do not depend on `DATA`: each feed reads it before. -/
theorem feedBytes_with_data (bs : List Byte) (e : Engine) (d : Word) :
    feedBytes bs { e with data := d } = { feedBytes bs e with data := d } := by
  induction bs generalizing e with
  | nil => rfl
  | cons b bs ih => rw [feedBytes_cons, feedBytes_cons, feedByte_with_data, ih]

/-- A word written to `CMD` runs the command it decodes to (spec/10_state.md R26). -/
theorem perform_command {w : Word} {i : Instr} (agent : Nat) (s : State) (h : decode w = .ok i) :
    performEvent (regWrite agent .cmd w) s = exec i s :=
  (perform_regWrite agent .cmd w s).trans (execute_of_ok s h)

/-- `DATA` written, then a command that feeds the bytes `bs` of it. -/
theorem runEvents_data_command {w d : Word} {i : Instr} {bs : List Byte} (agent : Nat) (es : List PortEvent) (s : State)
    (hw : decode w = .ok i) (hi : exec i (s.withEngine { s.engine with data := d }) =
      .next (s.withEngine (feedBytes bs { s.engine with data := d }))) :
    runEvents (regWrite agent .data d :: regWrite agent .cmd w :: es) s =
      runEvents es (s.withEngine { feedBytes bs s.engine with data := d }) := by
  have hdata : performEvent (regWrite agent .data d) s = .next (s.withEngine { s.engine with data := d }) :=
    perform_regWrite agent .data d s
  rw [← feedBytes_with_data, runEvents_cons hdata, runEvents_cons ((perform_command agent _ hw).trans hi)]

/-- The two accesses of one feed (spec/40_checksum_engine.md R105, R106, R107). -/
theorem runEvents_feed (agent : Nat) (f : Feed) (es : List PortEvent) (s : State) :
    ∃ d, runEvents (feedEvents agent f ++ es) s =
      runEvents es (s.withEngine { feedBytes (fedBy f) s.engine with data := d }) := by
  cases f with
  | byte d => exact ⟨d, runEvents_data_command agent es s decode_feed8 rfl⟩
  | half d => exact ⟨d, runEvents_data_command agent es s decode_feed16 rfl⟩
  | word d => exact ⟨d, runEvents_data_command agent es s decode_feed32 rfl⟩

/-- Any feeds feed their bytes in order, and otherwise change `DATA` alone. -/
theorem runEvents_feeds (agent : Nat) (fs : List Feed) (es : List PortEvent) (s : State) :
    ∃ d, runEvents (fs.flatMap (feedEvents agent) ++ es) s =
      runEvents es (s.withEngine { feedBytes (fs.flatMap fedBy) s.engine with data := d }) := by
  induction fs generalizing s with
  | nil => exact ⟨s.engine.data, rfl⟩
  | cons f fs ih =>
    obtain ⟨d, hd⟩ := runEvents_feed agent f (fs.flatMap (feedEvents agent) ++ es) s
    obtain ⟨d', hd'⟩ := ih (s.withEngine { feedBytes (fedBy f) s.engine with data := d })
    refine ⟨d', ?_⟩
    rw [List.flatMap_cons, List.append_assoc, hd, hd', withEngine_engine, withEngine_withEngine, feedBytes_with_data,
      List.flatMap_cons, feedBytes_append]

/-- CLR, any feeds, FINAL. -/
def streamEvents (agent : Nat) (fs : List Feed) : List PortEvent :=
  regWrite agent .cmd 0x00000001 :: (fs.flatMap (feedEvents agent) ++ [regWrite agent .cmd 0x00000005])

/-- What a streamed sequence leaves behind (spec/40_checksum_engine.md R108). -/
theorem runEvents_stream (agent : Nat) (fs : List Feed) (s : State) :
    ∃ t, runEvents (streamEvents agent fs) s = .next t ∧
      t.engine.csum = (checksum (fs.flatMap fedBy)).zeroExtend 32 ∧ t.engine.zero = decide (checksum (fs.flatMap fedBy) = 0) ∧
      t.engine.cnt = BitVec.ofNat 32 (fs.flatMap fedBy).length ∧ t.engine.ovf = carriesOut (wordSum (fs.flatMap fedBy)) := by
  have hclr : performEvent (regWrite agent .cmd 0x00000001) s = .next (s.withEngine (clearStream s.engine)) :=
    perform_command agent s decode_clr
  obtain ⟨d, hd⟩ := runEvents_feeds agent fs [regWrite agent .cmd 0x00000005] (s.withEngine (clearStream s.engine))
  rw [streamEvents, runEvents_cons hclr, hd, runEvents_singleton, perform_command agent _ decode_final]
  refine ⟨_, rfl, ?_⟩
  have hodd : ({ clearStream s.engine with data := d } : Engine).odd = false := clearStream_odd s.engine
  rw [withEngine_engine, withEngine_engine, withEngine_engine, ← feedBytes_with_data, finish_feedBytes _ _ hodd]
  refine ⟨rfl, rfl, ?_, ?_⟩
  · simp [feedBytes_cnt]
  · simp

/-! ## Folding, modulo 65535 -/

/-- Sixteen bits are added exactly in seventeen. -/
theorem toNat_add_zeroExtend_17 {n m : Nat} {x : BitVec n} {y : BitVec m} (hx : x.toNat < 2 ^ 16) (hy : y.toNat < 2 ^ 16) :
    (x.zeroExtend 17 + y.zeroExtend 17).toNat = x.toNat + y.toNat := by
  simp only [BitVec.toNat_add, BitVec.truncate_eq_setWidth, BitVec.toNat_setWidth]
  omega

theorem fold16_eq_zero_iff (v : Word) : fold16 v = 0 ↔ v = 0 := by
  rw [← BitVec.toNat_inj, ← BitVec.toNat_inj, fold16_toNat]
  change _ = 0 ↔ _ = 0
  omega

/-- Folding replaces 65536 by 1: the residue modulo 65535, and whether the value is 0, determine the folded value. -/
theorem fold16_eq {v : Word} {h : Half} (hmod : v.toNat % 65535 = h.toNat % 65535) (hzero : v.toNat = 0 ↔ h.toNat = 0) :
    fold16 v = h := by
  apply BitVec.eq_of_toNat_eq
  have := h.isLt
  have := v.isLt
  rw [fold16_toNat]
  omega

theorem checksum_toNat (bs : List Byte) : (checksum bs).toNat = 65535 - (fold16 (sumWords 0 bs)).toNat :=
  toNat_complement _

/-- The checksum is a function of the exact sum. -/
theorem checksum_congr {bs cs : List Byte} (h : wordSum bs = wordSum cs) : checksum bs = checksum cs := by
  have hsum : sumWords 0 bs = sumWords 0 cs := by
    apply BitVec.eq_of_toNat_eq
    rw [sumWords_toNat, sumWords_toNat, h]
  rw [checksum, checksum, hsum]

/-! ## Which sequences have the checksum 0xFFFF, and which 0 -/

theorem byte_toNat_eq_zero (b : Byte) : b.toNat = 0 ↔ b = 0 :=
  BitVec.toNat_inj (y := 0)

theorem wordSum_eq_zero_iff (bs : List Byte) : wordSum bs = 0 ↔ ∀ b ∈ bs, b = 0 := by
  induction bs using wordSum.induct with
  | case1 => simp [wordSum]
  | case2 b => simp [wordSum, byte_toNat_eq_zero]
  | case3 b c bs ih => simp [wordSum, ih, byte_toNat_eq_zero, and_assoc]

theorem checksum_eq_allOnes_iff {bs : List Byte} (hlen : bs.length ≤ Config.safeBytes) :
    checksum bs = 0xFFFF ↔ wordSum bs = 0 := by
  calc checksum bs = 0xFFFF
    _ ↔ fold16 (sumWords 0 bs) = 0 := BitVec.not_inj (y := 0#16)
    _ ↔ sumWords 0 bs = 0 := fold16_eq_zero_iff _
    _ ↔ (sumWords 0 bs).toNat = 0 := (BitVec.toNat_inj (y := 0#32)).symm
    _ ↔ wordSum bs = 0 := by rw [sumWords_exact bs hlen]

/-- A nonzero multiple of 65535 folds to 0xFFFF. -/
theorem checksum_eq_zero {bs : List Byte} (hlen : bs.length ≤ Config.safeBytes) (hmod : wordSum bs % 65535 = 0)
    (hpos : wordSum bs ≠ 0) : checksum bs = 0 := by
  have hfold : fold16 (sumWords 0 bs) = 0xFFFF := by
    apply fold16_eq <;> rw [sumWords_exact bs hlen]
    · exact hmod
    · simpa using hpos
  rw [checksum, hfold]
  rfl

/-- The exact sum and the checksum add up to a nonzero multiple of 65535. -/
theorem wordSum_add_checksum {bs : List Byte} (hlen : bs.length ≤ Config.safeBytes) :
    (wordSum bs + (checksum bs).toNat) % 65535 = 0 ∧ wordSum bs + (checksum bs).toNat ≠ 0 := by
  have hF := fold16_toNat (sumWords 0 bs)
  have hlt := (fold16 (sumWords 0 bs)).isLt
  rw [sumWords_exact bs hlen] at hF
  rw [checksum_toNat]
  omega

/-- A word written at an even offset where zeros stood adds itself to the exact sum (spec/40_checksum_engine.md R102). -/
theorem wordSum_set_pair (bs : List Byte) (k : Nat) (x y : Byte) (heven : k % 2 = 0) (h0 : bs[k]? = some 0)
    (h1 : bs[k + 1]? = some 0) : wordSum ((bs.set k x).set (k + 1) y) = wordSum bs + (256 * x.toNat + y.toNat) := by
  induction bs using wordSum.induct generalizing k with
  | case1 => simp at h0
  | case2 b => simp at h1
  | case3 b c bs ih =>
    match k with
    | 0 =>
      obtain rfl : b = 0 := by simpa using h0
      obtain rfl : c = 0 := by simpa using h1
      simp [wordSum, Nat.add_comm]
    | 1 => cases heven
    | k + 2 =>
      have hset : ((b :: c :: bs).set (k + 2) x).set (k + 2 + 1) y = b :: c :: (bs.set k x).set (k + 1) y := rfl
      rw [hset, wordSum, wordSum, ih k (by omega) h0 h1, ← Nat.add_assoc]

/-! ## Sequences of words (spec/40_checksum_engine.md R109) -/

theorem toNat_halves (w : Half) : 256 * (w.extractLsb' 8 8).toNat + (w.extractLsb' 0 8).toNat = w.toNat := by
  rw [← toNat_word_of_bytes, half_of_bytes]

theorem halfBytes_append (b c : Byte) : halfBytes (b ++ c) = [b, c] := by
  have := b.isLt
  have := c.isLt
  simp only [halfBytes, List.cons.injEq, and_true]
  constructor <;> apply BitVec.eq_of_toNat_eq <;> rw [toNat_field, toNat_word_of_bytes] <;> omega

theorem wordSum_flatMap_halfBytes (ws : List Half) : wordSum (ws.flatMap halfBytes) = (ws.map BitVec.toNat).sum := by
  induction ws with
  | nil => rfl
  | cons w ws ih =>
    rw [List.flatMap_cons, halfBytes, List.cons_append, List.singleton_append, wordSum, ih, toNat_halves, List.map_cons,
      List.sum_cons]

theorem length_flatMap_halfBytes (ws : List Half) : (ws.flatMap halfBytes).length = 2 * ws.length := by
  rw [List.length_flatMap]
  simp [halfBytes, Nat.mul_comm]

/-- A word with its two bytes swapped. -/
def swapBytes (w : Half) : Half := w.extractLsb' 0 8 ++ w.extractLsb' 8 8

theorem swapBytes_toNat (w : Half) : (swapBytes w).toNat = 256 * (w.toNat % 256) + w.toNat / 256 := by
  have := w.isLt
  rw [swapBytes, toNat_word_of_bytes, toNat_field, toNat_field]
  omega

theorem swapBytes_complement (w : Half) : swapBytes (~~~w) = ~~~(swapBytes w) := by
  have := w.isLt
  apply BitVec.eq_of_toNat_eq
  rw [toNat_complement, swapBytes_toNat, swapBytes_toNat, toNat_complement]
  omega

/-- Swapping the bytes of every word multiplies the exact sum by 256, modulo 65535, and keeps whether it is 0. -/
theorem sum_map_swapBytes (ws : List Half) :
    ((ws.map swapBytes).map BitVec.toNat).sum % 65535 = 256 * (ws.map BitVec.toNat).sum % 65535 ∧
    (((ws.map swapBytes).map BitVec.toNat).sum = 0 ↔ (ws.map BitVec.toNat).sum = 0) := by
  induction ws with
  | nil => simp
  | cons w ws ih =>
    simp only [List.map_cons, List.sum_cons, swapBytes_toNat]
    omega

/-- A word congruent to `256 * v` folds to what `v` folds to with its bytes swapped. -/
theorem fold16_swapBytes {v v' : Word} (hmod : v'.toNat % 65535 = 256 * v.toNat % 65535)
    (hzero : v'.toNat = 0 ↔ v.toNat = 0) : fold16 v' = swapBytes (fold16 v) := by
  have hv := fold16_toNat v
  apply fold16_eq <;> rw [swapBytes_toNat] <;> omega

/-- The checksum of swapped words (spec/40_checksum_engine.md R109). -/
theorem checksum_swapBytes {ws : List Half} (hlen : 2 * ws.length ≤ Config.safeBytes) :
    checksum ((ws.map swapBytes).flatMap halfBytes) = swapBytes (checksum (ws.flatMap halfBytes)) := by
  obtain ⟨hmod, hzero⟩ := sum_map_swapBytes ws
  have hfold : fold16 (sumWords 0 ((ws.map swapBytes).flatMap halfBytes)) =
      swapBytes (fold16 (sumWords 0 (ws.flatMap halfBytes))) := by
    apply fold16_swapBytes <;>
      rwa [sumWords_exact _ (by rwa [length_flatMap_halfBytes, List.length_map]),
        sumWords_exact _ (by rwa [length_flatMap_halfBytes]), wordSum_flatMap_halfBytes, wordSum_flatMap_halfBytes]
  rw [checksum, checksum, hfold, swapBytes_complement]

end Sys2Proof.Machine

open Sys2Proof Sys2Proof.Machine

/-- Settles O41: the run of the accesses, and that up to `SAFE_BYTES` bytes the exact sum fits. -/
theorem streamedChecksumIsTheChecksumOfTheBytesFed : Obligations.StreamedChecksumIsTheChecksumOfTheBytesFed := by
  unfold Obligations.StreamedChecksumIsTheChecksumOfTheBytesFed
  intro s agent fs bytes
  obtain ⟨t, ht, hcsum, hzero, hcnt, hovf⟩ := runEvents_stream agent fs s
  refine ⟨t, ht, hcsum, hzero, hcnt, hovf, fun hlen => ?_, ?_⟩
  · have hle := wordSum_le bytes
    exact hovf.trans (decide_eq_false (show ¬2 ^ 32 ≤ wordSum bytes by omega))
  · simp [sumWords_toNat]

/-- Settles O43: the region as a list of bytes, and the checksum that a streamed sequence leaves in any state. -/
theorem equalBytesGiveEqualChecksums : Obligations.EqualBytesGiveEqualChecksums := by
  unfold Obligations.EqualBytesGiveEqualChecksums
  refine ⟨fun s u off len hin hread => ?_, fun s u a b fs => ?_⟩
  · have hregion : s.engine.pkt.region off len = u.engine.pkt.region off len :=
      List.map_congr_left fun j hj => hread _ (by omega) (by have := List.mem_range.mp hj; omega)
    refine ⟨_, _, exec_csumbuf_inside s hin, exec_csumbuf_inside u hin, ?_, ?_⟩ <;> simp [hregion]
  · obtain ⟨t, ht, htc, htz, -⟩ := runEvents_stream a fs s
    obtain ⟨v, hv, hvc, hvz, -⟩ := runEvents_stream b fs u
    exact ⟨t, v, ht, hv, htc.trans hvc.symm, htz.trans hvz.symm⟩

/-- Settles O42: the word's four fields, then the check of the region. -/
theorem csumbufWritesTheChecksumOfTheRegion : Obligations.CsumbufWritesTheChecksumOfTheRegion := by
  unfold Obligations.CsumbufWritesTheChecksumOfTheRegion
  refine ⟨fun rsv len off => ?_, fun s off len => ⟨fun hout => ?_, fun hin => ⟨?_, ?_⟩⟩⟩
  · exact decode_csumbuf_word rsv len off
  · exact exec_csumbuf_outside s hout
  · exact exec_csumbuf_inside s hin
  · rintro rfl
    exact (by decide : checksum [] = 0xFFFF)

/-- Settles O37: the installed checksum makes the exact sum a multiple of 65535. -/
theorem checksumInstalledAtEvenOffsetVerifies : Obligations.ChecksumInstalledAtEvenOffsetVerifies := by
  unfold Obligations.ChecksumInstalledAtEvenOffsetVerifies
  refine ⟨by decide, by decide, by decide, by decide, by decide, fun b k hlen heven hk h0 h1 => ?_⟩
  intro c
  have hsum : wordSum ((b.set k (c.extractLsb' 8 8)).set (k + 1) (c.extractLsb' 0 8)) = wordSum b + c.toNat := by
    rw [wordSum_set_pair b k _ _ heven h0 h1, toNat_halves]
  obtain ⟨hmod, hpos⟩ := wordSum_add_checksum hlen
  exact checksum_eq_zero (by rwa [List.length_set, List.length_set]) (hsum ▸ hmod) (hsum ▸ hpos)

/-- Settles O38: the exact sum is 0 exactly when every byte is. -/
theorem checksumIsAllOnesOnlyOfZeroBytes : Obligations.ChecksumIsAllOnesOnlyOfZeroBytes := by
  unfold Obligations.ChecksumIsAllOnesOnlyOfZeroBytes
  intro b hlen
  exact (checksum_eq_allOnes_iff hlen).trans (wordSum_eq_zero_iff b)

/-- Settles O39: a sum does not depend on the order of its terms. -/
theorem checksumIgnoresTheOrderOfWords : Obligations.ChecksumIgnoresTheOrderOfWords := by
  unfold Obligations.ChecksumIgnoresTheOrderOfWords
  intro ws vs hperm
  apply checksum_congr
  rw [wordSum_flatMap_halfBytes, wordSum_flatMap_halfBytes, (hperm.map _).sum_eq]

/-- Settles O40: a swap of the bytes is a multiplication by 256 modulo 65535, and the fold keeps it. -/
theorem checksumOfSwappedBytesIsSwapped : Obligations.ChecksumOfSwappedBytesIsSwapped := by
  unfold Obligations.ChecksumOfSwappedBytesIsSwapped
  intro ws hlen
  simpa only [List.flatMap_map, swapBytes, halfBytes_append] using checksum_swapBytes hlen

/-- Settles O36: the 17-bit sums are exact. -/
theorem fold16AddsTheHalvesTwice : Obligations.Fold16AddsTheHalvesTwice := by
  unfold Obligations.Fold16AddsTheHalvesTwice
  intro v t1 t2
  have hv := v.isLt
  have ht1 : t1.toNat = v.toNat / 2 ^ 16 + v.toNat % 2 ^ 16 := by
    rw [toNat_add_zeroExtend_17 (BitVec.isLt _) (BitVec.isLt _), toNat_field, toNat_field]
    omega
  have ht2 : t2.toNat = t1.toNat / 2 ^ 16 + t1.toNat % 2 ^ 16 := by
    have hcarry := (t1.extractLsb' 16 1).isLt
    rw [toNat_add_zeroExtend_17 (by omega) (BitVec.isLt _), toNat_field, toNat_field]
    omega
  refine ⟨ht1, by omega, by omega, ?_, fold16_eq_zero_iff v⟩
  apply BitVec.eq_of_toNat_eq
  rw [fold16_toNat, ← ht1, ← ht2, toNat_field]
  omega

/-- Settles O35: FINAL in numbers, and FINAL again. -/
theorem finalWritesTheComplementedFoldOfAccAndPad : Obligations.FinalWritesTheComplementedFoldOfAccAndPad := by
  unfold Obligations.FinalWritesTheComplementedFoldOfAccAndPad
  refine ⟨decode_final, rejectsOtherBits_of_decode decode_final rfl rfl, fun s => ?_⟩
  intro pad sum r e
  have he : finish s.engine = e := by
    simp only [e, r, ofNat_mod_word]
    exact finish_eq s.engine
  rw [← he]
  exact ⟨rfl, congrArg (fun e => Host.Outcome.next (s.withEngine e)) (finish_again s.engine)⟩

/-- Settles O34: two pairs of bytes at either parity. -/
theorem feed32FeedsFourBytes : Obligations.Feed32FeedsFourBytes := by
  unfold Obligations.Feed32FeedsFourBytes
  refine ⟨decode_feed32, rejectsOtherBits_of_decode decode_feed32 rfl rfl, fun s => ?_⟩
  refine ⟨_, rfl, rfl, ?_, ?_, feedBytes_frame _ _, fun h => ?_, fun h => ?_⟩
  · simp [wordBytes]
  · rw [feedBytes_cnt]
    rfl
  · simp only [wordBytes, feedBytes_cons, feedBytes_nil]
    rw [feedByte_pair_even _ _ (feedByte _ (feedByte _ _)) (by simp [h]), feedByte_pair_even _ _ _ h]
    refine ⟨rfl, ?_⟩
    rw [ofNat_acc_add, ofNat_acc_add, append_bytes_of_word _ 16, append_bytes_of_word _ 0, BitVec.add_assoc]
  · simp only [wordBytes, feedBytes_cons, feedBytes_nil]
    rw [feedByte_pair_odd _ _ (feedByte _ (feedByte _ _)) (by simp [h]), feedByte_pair_odd _ _ _ h]
    refine ⟨rfl, ?_⟩
    rw [ofNat_acc_add, ofNat_acc_add, append_bytes_of_word _ 8, BitVec.add_assoc]

/-- Settles O33: a pair of bytes at either parity. -/
theorem feed16FeedsTwoBytes : Obligations.Feed16FeedsTwoBytes := by
  unfold Obligations.Feed16FeedsTwoBytes
  refine ⟨decode_feed16, rejectsOtherBits_of_decode decode_feed16 rfl rfl, fun s => ?_⟩
  refine ⟨_, rfl, rfl, ?_, ?_, feedBytes_frame _ _, fun h => ?_, fun h => ?_⟩
  · simp
  · rw [feedBytes_cnt]
    rfl
  · rw [feedBytes_cons, feedBytes_cons, feedBytes_nil, feedByte_pair_even _ _ _ h, append_bytes_of_word _ 0]
    exact ⟨rfl, rfl, rfl⟩
  · rw [feedBytes_cons, feedBytes_cons, feedBytes_nil, feedByte_pair_odd _ _ _ h, toNat_word_of_bytes]
    exact ⟨rfl, rfl, rfl⟩

/-- Settles O30: CLR's update. -/
theorem clrClearsTheStreamingState : Obligations.ClrClearsTheStreamingState := by
  unfold Obligations.ClrClearsTheStreamingState
  exact ⟨decode_clr, rejectsOtherBits_of_decode decode_clr rfl rfl, fun s => ⟨rfl, clearStream_odd s.engine⟩⟩

/-- Settles O31: the two parities of `CNT`. -/
theorem feedByteWaitsOrCompletesAWord : Obligations.FeedByteWaitsOrCompletesAWord := by
  unfold Obligations.FeedByteWaitsOrCompletesAWord
  refine fun b e => ⟨feedByte_even b e, fun hodd => ?_⟩
  intro sum
  rw [feedByte_odd b e hodd, ofNat_mod_word, toNat_word_of_bytes]
  rfl

/-- Settles O32: one byte, and `ODD` is the parity of `CNT`. -/
theorem feed8FeedsTheLowByte : Obligations.Feed8FeedsTheLowByte := by
  unfold Obligations.Feed8FeedsTheLowByte
  exact ⟨decode_feed8, rejectsOtherBits_of_decode decode_feed8 rfl rfl, fun s => ⟨rfl, feedByte_odd_flips _ _⟩⟩

end

section
/-! The packet assembler (spec/41_packet_assembler.md R130, R131): PKTZ, and the invariant of the engine. The invariant speaks of
four parts of the engine that hardly meet: the buffer, the result, the streaming state and the error latch. Each update of the
engine keeps it, so each command and each event does, and with them each step. -/

namespace Sys2Proof.Machine

/-! ## The updates keep the invariant -/

section

variable {e : Engine}

/-- The invariant asks of the buffer its canonical form alone. -/
theorem inv_with_pkt {m : Memory} (h : e.Inv) (hm : m.wf = true) : ({ e with pkt := m } : Engine).Inv :=
  { h with pkt_wf := hm }

/-! The invariant does not speak of the operand registers, `FVAL` and `OVF`. -/

theorem inv_with_data (d : Word) (h : e.Inv) : ({ e with data := d } : Engine).Inv := { h with }
theorem inv_with_src (a : Word) (h : e.Inv) : ({ e with src := a } : Engine).Inv := { h with }
theorem inv_with_dst (a : Word) (h : e.Inv) : ({ e with dst := a } : Engine).Inv := { h with }
theorem inv_with_pid (p : Word) (h : e.Inv) : ({ e with pid := p } : Engine).Inv := { h with }
theorem inv_with_fval (v : Word) (h : e.Inv) : ({ e with fval := v } : Engine).Inv := { h with }
theorem inv_with_ovf (b : Bool) (h : e.Inv) : ({ e with ovf := b } : Engine).Inv := { h with }

/-- A result is written to `CSUM` and `ZERO` together (spec/10_state.md R27, R34). -/
theorem inv_setResult (r : Half) (h : e.Inv) : (setResult r e).Inv := by
  obtain ⟨hzero, hhigh⟩ := setResult_zero_iff_csum r e
  exact { h with csum_high := hhigh, zero_csum := fun hz => of_decide_eq_true (hzero.symm.trans hz) }

theorem inv_finish (h : e.Inv) : (finish e).Inv :=
  inv_setResult _ (inv_with_ovf _ h)

theorem inv_clearStream (h : e.Inv) : (clearStream e).Inv :=
  { h with pend_idle := fun _ => rfl }

/-- A byte that starts a word leaves `ODD` set, and one that completes a word clears `PEND` (spec/10_state.md R32). -/
theorem inv_feedByte (b : Byte) (h : e.Inv) : (feedByte b e).Inv := by
  have hflip := feedByte_odd_flips b e
  cases hodd : e.odd
  · rw [hodd, feedByte_even b e hodd] at hflip
    rw [feedByte_even b e hodd]
    exact { h with pend_idle := fun hidle => absurd (hidle.symm.trans hflip) (by decide) }
  · rw [feedByte_odd b e hodd]
    exact { h with pend_idle := fun _ => rfl }

theorem inv_feedBytes (bs : List Byte) (h : e.Inv) : (feedBytes bs e).Inv := by
  induction bs generalizing e with
  | nil => exact h
  | cons b bs ih => exact ih (inv_feedByte b h)

/-- The codes of the table are 1 to 6 (spec/60_exceptions.md R201). -/
theorem errorCode_bits_range (c : ErrorCode) : c.bits.toNat ≤ 6 ∧ c.bits ≠ 0 := by
  cases c <;> decide

/-- The first error brings its code, and a later one changes nothing (spec/60_exceptions.md R204). -/
theorem inv_raiseError (c : ErrorCode) (info : Word) (h : e.Inv) : (raiseError c info e).Inv := by
  obtain ⟨hle, hne⟩ := errorCode_bits_range c
  cases herr : e.err
  · rw [raiseError_first c info e herr]
    exact { h with ecode_range := hle, ecode_err := nofun, err_ecode := fun _ => hne }
  · rwa [raiseError_later c info e herr]

theorem inv_badAccess (wr : Bool) (n : Width) (off : Offset) (h : e.Inv) : (badAccess wr n off e).Inv :=
  inv_raiseError _ _ h

theorem inv_clearError (h : e.Inv) : (clearError e).Inv :=
  { h with ecode_range := Nat.zero_le 6, ecode_err := fun _ => ⟨rfl, rfl⟩, err_ecode := nofun }

theorem inv_writeStatus (w : Word) (h : e.Inv) : (writeStatus w e).Inv := by
  have hovf : (if w.getLsbD 1 = true then clearOverflow e else e).Inv := by
    split
    · exact inv_with_ovf false h
    · exact h
  dsimp only [writeStatus]
  split
  · exact inv_clearError hovf
  · exact hovf

end

theorem inv_reset : Engine.reset.Inv where
  pkt_wf := wf_reset
  csum_high := rfl
  zero_csum := nofun
  pend_idle := fun _ => rfl
  ecode_range := Nat.zero_le 6
  ecode_err := fun _ => ⟨rfl, rfl⟩
  err_ecode := nofun

/-! ## The commands keep the invariant -/

/-- Every command keeps the canonical form of the buffer (spec/41_packet_assembler.md R131): what it writes lies inside. -/
theorem exec_keeps_wf {i : Instr} {s t : State} (hs : s.engine.pkt.wf = true) (h : exec i s = .next t) :
    t.engine.pkt.wf = true := by
  cases i
  case pktz =>
    cases h
    simpa using wf_zeroBuffer hs
  case build =>
    cases h
    simpa using wf_buildHeaders _ _ _ hs
  case insicmp | insip =>
    cases h
    exact wf_installChecksum hs (by decide)
  case fset fid =>
    simp only [exec, execFset] at h
    split at h
    · cases h
      simpa using hs
    · split at h <;> cases h
      · simpa using hs
      · exact wf_fieldWrite _ _ hs
  case csumbuf off len =>
    simp only [exec, execCsumbuf] at h
    split at h <;> cases h <;> simpa using hs
  case fget fid =>
    simp only [exec, execFget] at h
    split at h <;> cases h <;> simpa using hs
  case nop | clr | feed8 | feed16 | feed32 | final =>
    cases h
    simpa [finish] using hs

/-- What a command can leave behind has the invariant if its buffer is canonical. -/
theorem CommandEffect.keeps_inv {e e' : Engine} {i : Instr} (h : CommandEffect e i e') (hm : e'.pkt.wf = true)
    (he : e.Inv) : e'.Inv := by
  cases h with
  | idles => exact he
  | clears => exact inv_clearStream he
  | feeds _ bs => exact inv_feedBytes bs he
  | finishes => exact inv_finish he
  | sums _ r m => exact inv_setResult r (inv_with_pkt he hm)
  | stores _ m => exact inv_with_pkt he hm
  | gets fid v => exact inv_with_fval v he
  | raises _ c => exact inv_raiseError c _ he

section

variable {s t : State}

theorem exec_keeps_inv {i : Instr} (hs : s.Inv) (h : exec i s = .next t) : t.Inv :=
  (exec_effect h).keeps_inv (exec_keeps_wf hs.pkt_wf h) hs

theorem execute_keeps_inv {w : Word} (hs : s.Inv) (h : execute w s = .next t) : t.Inv := by
  obtain ⟨c, -, rfl⟩ | ⟨i, -, hx⟩ := execute_cases h
  · exact inv_raiseError _ w hs
  · exact exec_keeps_inv hs hx

/-! ## The events and the steps keep the invariant -/

theorem writeReg_keeps_inv {r : Reg} {w : Word} (hs : s.Inv) (h : writeReg r w s = .next t) : t.Inv := by
  obtain ⟨-, hx⟩ | ⟨-, rfl⟩ | ⟨-, rfl⟩ | ⟨-, rfl⟩ | ⟨-, rfl⟩ | ⟨-, rfl⟩ | ⟨-, rfl⟩ := writeReg_cases h
  · exact execute_keeps_inv hs hx
  · exact inv_writeStatus w hs
  · exact inv_with_data w hs
  · exact inv_with_src w hs
  · exact inv_with_dst w hs
  · exact inv_with_pid w hs
  · exact inv_badAccess _ _ _ hs

theorem inv_hostRead {e : Engine} (off : Offset) (n : Width) (h : e.Inv) : (hostRead off n e).2.Inv := by
  obtain he | he := hostRead_engine off n e <;> rw [he]
  · exact h
  · exact inv_badAccess _ _ _ h

theorem performEvent_keeps_inv {ev : PortEvent} (hs : s.Inv) (h : performEvent ev s = .next t) : t.Inv := by
  cases ev with
  | reset =>
    cases h
    exact inv_reset
  | access agent a =>
    obtain ⟨n, off, -, rfl⟩ | ⟨r, w, -, hw⟩ | ⟨off, v, k, -, -, hk, rfl⟩ | ⟨off, v, -, -, -, rfl⟩ := access_cases h
    · exact inv_hostRead off n hs
    · exact writeReg_keeps_inv hs hw
    · exact inv_with_pkt hs (wf_window hk hs.pkt_wf)
    · exact inv_badAccess _ _ _ hs

/-- What waits at the port is no part of the invariant. -/
theorem step_keeps_inv (hs : s.Inv) (h : step s = .next t) : t.Inv := by
  obtain ⟨e, pending, replies⟩ := s
  cases pending with
  | nil =>
    cases h
    exact hs
  | cons ev rest => exact performEvent_keeps_inv (s := ⟨e, rest, replies⟩) hs h

end

/-! ## The word of PKTZ -/

theorem decode_pktz : decode 0x00000010 = .ok .pktz := decode_of_encode_eq rfl rfl

end Sys2Proof.Machine

open Sys2Proof Sys2Proof.Machine

/-- Settles O12: every update that a step can make to the engine keeps the invariant. -/
theorem everyStepKeepsTheInvariant : Obligations.EveryStepKeepsTheInvariant := by
  unfold Obligations.EveryStepKeepsTheInvariant
  intro s t
  exact step_keeps_inv

/-- Settles O45: the word, then the buffer byte by byte; the wire length is two of its bytes. -/
theorem pktzZeroesTheBuffer : Obligations.PktzZeroesTheBuffer := by
  unfold Obligations.PktzZeroesTheBuffer
  refine ⟨decode_pktz, rejectsOtherBits_of_decode decode_pktz rfl rfl, fun s => ?_⟩
  refine ⟨_, exec_pktz s, store_frame s _, fun k hk => ?_, fun k hk => ?_, ?_⟩
  · rw [read_zeroBuffer, if_pos hk]
  · rw [read_zeroBuffer, if_neg (Nat.not_lt.mpr hk)]
  · apply BitVec.eq_of_toNat_eq
    rw [wirelen_toNat, read_zeroBuffer, read_zeroBuffer]
    rfl

end

section
/-! The header builder and the field encoder (spec/42_header_builder.md R141 to R160): BUILD's bytes, and the sixteen fields as
places of the buffer that do not meet, but for the two nibbles of byte 0. -/

namespace Sys2Proof.Machine

/-! ## Reading a place of the buffer -/

/-- Reading the place where a value was written gives the value back (spec/00_scope.md R9). -/
theorem memRead_memWrite_same (m : Memory) (k : Nat) (v : Value) : memRead (memWrite m k v) k v.width = v := by
  cases v with
  | byte v => simp [memRead, Value.width, read_memWrite_byte]
  | half v => simpa [memRead, memRead16, Value.width, read_memWrite_half] using half_of_bytes v
  | word v => exact memRead_word_memWrite_word m k v

/-- A big-endian read depends on its own bytes alone (spec/00_scope.md R9). -/
theorem memRead_congr {m m' : Memory} {k : Nat} {n : Width} (h : ∀ j, k ≤ j → j < k + n.bytes → m.read j = m'.read j) :
    memRead m k n = memRead m' k n := by
  cases n <;> simp only [Width.bytes] at h
  case byte => rw [memRead, memRead, h k (by omega) (by omega)]
  case half => rw [memRead, memRead, memRead16, memRead16, h k (by omega) (by omega), h (k + 1) (by omega) (by omega)]
  case word =>
    rw [memRead, memRead, memRead32, memRead32, h k (by omega) (by omega), h (k + 1) (by omega) (by omega),
      h (k + 2) (by omega) (by omega), h (k + 3) (by omega) (by omega)]

/-- The low bytes of a word that they hold, zero-extended, are the word. -/
theorem toWord_valueOfWord {n : Width} {v : Word} (h : v.toNat < 2 ^ (8 * n.bytes)) : (valueOfWord n v).toWord = v := by
  apply BitVec.eq_of_toNat_eq
  cases n <;> simp only [Width.bytes] at h
  case word => rfl
  all_goals
    simp only [valueOfWord, Value.toWord, BitVec.truncate_eq_setWidth, BitVec.toNat_setWidth]
    omega

/-! ## The field table (spec/30_encoding.md R90) -/

/-- Two fields stand in different bytes, or are the two nibbles of byte 0. -/
theorem fields_apart (f g : Field) : g ≠ f →
    fieldAt g + (fieldBytes g).bytes ≤ fieldAt f ∨ fieldAt f + (fieldBytes f).bytes ≤ fieldAt g ∨
      (f = .ipVer ∧ g = .ipIhl) ∨ (f = .ipIhl ∧ g = .ipVer) := by
  cases f <;> cases g <;> decide

section

variable {f : Field} (hf : ¬(f = .ipVer ∨ f = .ipIhl))

include hf

/-- A field of whole bytes is as wide as its bytes. -/
theorem fieldWidth_eq_bytes : fieldWidth f = 8 * (fieldBytes f).bytes := by
  cases f
  case ipVer | ipIhl => simp at hf
  all_goals rfl

theorem fieldRead_eq_memRead (m : Memory) : fieldRead m f = (memRead m (fieldAt f) (fieldBytes f)).toWord := by
  cases f
  case ipVer | ipIhl => simp at hf
  all_goals rfl

theorem fieldWrite_eq_memWrite (m : Memory) (v : Word) :
    fieldWrite m f v = memWrite m (fieldAt f) (valueOfWord (fieldBytes f) v) := by
  cases f
  case ipVer | ipIhl => simp at hf
  all_goals rfl

end

/-! ## Reading a field -/

/-- A nibble as a shift or a mask of its byte (spec/42_header_builder.md R143). -/
theorem zeroExtend_high_nibble (b : Byte) : ((b.extractLsb' 4 4).zeroExtend 32 : Word) = b.zeroExtend 32 >>> 4 := by
  apply BitVec.eq_of_toNat_eq
  have := b.isLt
  simp only [BitVec.truncate_eq_setWidth, BitVec.toNat_setWidth, BitVec.toNat_ushiftRight, toNat_field,
    Nat.shiftRight_eq_div_pow]
  omega

theorem zeroExtend_low_nibble (b : Byte) : ((b.extractLsb' 0 4).zeroExtend 32 : Word) = b.zeroExtend 32 &&& 0x0000000F := by
  apply BitVec.eq_of_toNat_eq
  have := b.isLt
  have hmask : (0x0000000F : Word).toNat = 2 ^ 4 - 1 := rfl
  rw [BitVec.toNat_and, hmask, Nat.and_two_pow_sub_one_eq_mod]
  simp only [BitVec.truncate_eq_setWidth, BitVec.toNat_setWidth, toNat_field]
  omega

/-- A field's value depends on the bytes it stands in alone. -/
theorem fieldRead_congr {m m' : Memory} {f : Field}
    (h : ∀ k, fieldAt f ≤ k → k < fieldAt f + (fieldBytes f).bytes → m.read k = m'.read k) :
    fieldRead m f = fieldRead m' f := by
  by_cases hf : f = .ipVer ∨ f = .ipIhl
  · obtain rfl | rfl := hf <;> rw [fieldRead, fieldRead, h 0 (by decide) (by decide)]
  · rw [fieldRead_eq_memRead hf, fieldRead_eq_memRead hf, memRead_congr h]

/-- A field written reads back (spec/42_header_builder.md R143). -/
theorem fieldRead_fieldWrite_same (m : Memory) {f : Field} {v : Word} (hv : v.toNat < 2 ^ fieldWidth f) :
    fieldRead (fieldWrite m f v) f = v := by
  by_cases hf : f = .ipVer ∨ f = .ipIhl
  · have hnibble : v.toNat < 16 := by obtain rfl | rfl := hf <;> exact hv
    apply BitVec.eq_of_toNat_eq
    obtain rfl | rfl := hf <;>
      simp only [fieldRead, fieldWrite, read_write_same, BitVec.truncate_eq_setWidth, BitVec.toNat_setWidth, toNat_field,
        toNat_append_eq] <;>
      omega
  · have hread := memRead_memWrite_same m (fieldAt f) (valueOfWord (fieldBytes f) v)
    rw [width_valueOfWord] at hread
    rw [fieldRead_eq_memRead hf, fieldWrite_eq_memWrite hf, hread]
    exact toWord_valueOfWord (fieldWidth_eq_bytes hf ▸ hv)

/-- A field written leaves every other field (spec/42_header_builder.md R143). -/
theorem fieldRead_fieldWrite_other (m : Memory) {f g : Field} (v : Word) (h : g ≠ f) :
    fieldRead (fieldWrite m f v) g = fieldRead m g := by
  obtain hlow | hhigh | ⟨rfl, rfl⟩ | ⟨rfl, rfl⟩ := fields_apart f g h
  · exact fieldRead_congr fun k _ hk => read_fieldWrite_outside m f v (.inl (by omega))
  · exact fieldRead_congr fun k hk _ => read_fieldWrite_outside m f v (.inr (by omega))
  · rw [fieldRead, fieldRead, low_nibble_fieldWrite_ipVer]
  · rw [fieldRead, fieldRead, high_nibble_fieldWrite_ipIhl]

/-! ## The words of the three commands -/

theorem decode_build : decode 0x00000011 = .ok .build := decode_of_encode_eq rfl rfl

/-- The word of a command whose one operand stands in `A`, field by field (spec/30_encoding.md R84). -/
theorem decode_word_of_usesA {rsv b a op : Byte} {i : Instr} (hmap : instrOfOp op.toNat a.toNat b.toNat = some i)
    (hA : usesA op.toNat = true) (hB : usesB op.toNat = false) :
    decode (rsv ++ (b ++ (a ++ op)) : Word) = if rsv = 0 ∧ b = 0 then .ok i else .error .reservedField := by
  have hfields := fields_of_append rsv b a op
  generalize (rsv ++ (b ++ (a ++ op)) : Word) = w at hfields ⊢
  obtain ⟨hop, ha, hb, hrsv⟩ := hfields
  rw [← hop, ← ha, ← hb] at hmap
  rw [← hop] at hA hB
  simp only [← byte_toNat_eq_zero, ← hrsv, ← hb]
  split
  · next h => exact decode_of_fields hmap h.1 (by simp [hA]) fun _ => h.2
  · next h => exact decode_of_reserved hmap (by tauto)

/-! ## The buffer after BUILD -/

section

variable (src dst pid : Word) (m : Memory)

/-- The bytes that BUILD does not write: `IP_FRAG`'s, and those outside the buffer (spec/42_header_builder.md R141). -/
theorem read_buildHeaders_kept {k : Nat} (h : k = 6 ∨ k = 7 ∨ 28 ≤ k) :
    (buildHeaders src dst pid m).read k = m.read k := by
  rw [read_buildHeaders]
  obtain rfl | rfl | h := h
  · rfl
  · rfl
  · simp (disch := omega) only [if_neg]

/-- The other bytes are the same whatever the buffer held. -/
theorem read_buildHeaders_congr (m' : Memory) {k : Nat} (h6 : k ≠ 6) (h7 : k ≠ 7) (h28 : k < 28) :
    (buildHeaders src dst pid m).read k = (buildHeaders src dst pid m').read k := by
  simp only [read_buildHeaders, h6, h7, h28, if_true, if_false]

theorem read_buildHeaders_again (k : Nat) :
    (buildHeaders src dst pid (buildHeaders src dst pid m)).read k = (buildHeaders src dst pid m).read k := by
  by_cases h : k = 6 ∨ k = 7 ∨ 28 ≤ k
  · exact read_buildHeaders_kept _ _ _ _ h
  · exact read_buildHeaders_congr _ _ _ _ _ (by omega) (by omega) (by omega)

/-- The column BUILD of the field table, with 0 for `IP_FRAG`, which has no entry (spec/30_encoding.md R90). -/
def builtField : Field → Word
  | .ipVer => 4
  | .ipIhl => 5
  | .ipLen => 28
  | .ipId => (pid.extractLsb' 0 16).zeroExtend 32
  | .ipTtl => 255
  | .ipProto => 1
  | .ipSrc => src
  | .ipDst => dst
  | .icmpType => 8
  | .ipTos | .ipFrag | .ipSum | .icmpCode | .icmpSum | .icmpId | .icmpSeq => 0

/-- The fields after BUILD (spec/42_header_builder.md R142). -/
theorem fieldRead_buildHeaders {f : Field} (hf : f ≠ .ipFrag) :
    fieldRead (buildHeaders src dst pid m) f = builtField src dst pid f := by
  cases f <;> simp only [fieldRead, memRead, memRead16, memRead32, fieldAt, fieldBytes, read_buildHeaders, Nat.reduceAdd,
    Nat.reduceEqDiff, Nat.reduceLT, OfNat.ofNat_ne_zero, OfNat.ofNat_ne_one, one_ne_zero, reduceIte]
  case ipFrag => exact absurd rfl hf
  case ipSrc => exact word_of_bytes src
  case ipDst => exact word_of_bytes dst
  case ipId => exact congrArg (BitVec.zeroExtend 32) (append_bytes_of_word pid 0)
  all_goals rfl

end

end Sys2Proof.Machine

open Sys2Proof Sys2Proof.Machine

/-- Settles O46: the word, then the buffer byte by byte. -/
theorem buildWritesBothHeaders : Obligations.BuildWritesBothHeaders := by
  unfold Obligations.BuildWritesBothHeaders
  refine ⟨decode_build, rejectsOtherBits_of_decode decode_build rfl rfl, fun s => ?_⟩
  refine ⟨_, exec_build s, store_frame s _, ?_, fun k hk => ?_, ?_, ?_⟩
  · simp [Memory.region, List.range_succ, read_buildHeaders]
  · rw [read_buildHeaders_kept _ _ _ _ (.inr (.inr hk))]
  · simp only [← fieldRead_ipLen, fieldRead_buildHeaders, ne_eq, reduceCtorEq, not_false_eq_true, builtField]
  · rw [exec_build, withEngine_withEngine]
    refine ⟨_, rfl, fun k => ?_⟩
    simp only [withEngine_engine, read_buildHeaders_again]

/-- Settles O47: FGET of a field of the table answers its value, here the built one. -/
theorem fgetAfterBuildReturnsTheBuiltValue : Obligations.FgetAfterBuildReturnsTheBuiltValue := by
  unfold Obligations.FgetAfterBuildReturnsTheBuiltValue
  intro s t f h
  obtain rfl := Host.Outcome.next.inj ((exec_build s).symm.trans h)
  refine ⟨_, exec_fget_field _ ((fieldOfId_iff _ f).mpr rfl), fun hf => ?_⟩
  rw [withEngine_engine, withEngine_engine, fieldRead_buildHeaders _ _ _ _ hf]
  cases f <;> rfl

/-- Settles O48: the word, the two checks in their order, the write, and the table row by row. -/
theorem fsetWritesDataIntoTheField : Obligations.FsetWritesDataIntoTheField := by
  unfold Obligations.FsetWritesDataIntoTheField
  refine ⟨fun rsv b fid => decode_word_of_usesA rfl rfl rfl, fun s fid => ⟨exec_fset_reserved s, fun f hid => ?_⟩,
    fieldOfId_iff, fun f => by cases f <;> rfl⟩
  have hf := (fieldOfId_iff fid f).mpr hid
  refine ⟨fun hwide => exec_fset_wide s hf (decide_eq_false (Nat.not_lt.mpr hwide)), fun hfits => ?_⟩
  refine ⟨_, exec_fset_fits s hf (decide_eq_true hfits), store_frame s _, ?_, ?_, ?_, fun k => read_fieldWrite_outside _ _ _⟩
  · exact ⟨_, exec_fget_field _ hf, fieldRead_fieldWrite_same _ hfits⟩
  · rintro rfl
    exact low_nibble_fieldWrite_ipVer _ _
  · rintro rfl
    exact high_nibble_fieldWrite_ipIhl _ _

/-- Settles O49: the word, the check, the read, and the table row by row. -/
theorem fgetReadsTheFieldIntoFval : Obligations.FgetReadsTheFieldIntoFval := by
  unfold Obligations.FgetReadsTheFieldIntoFval
  refine ⟨fun rsv b fid => decode_word_of_usesA rfl rfl rfl, fun s fid => ⟨exec_fget_reserved s, fun f hid => ?_, ?_⟩⟩
  · exact exec_fget_field s ((fieldOfId_iff fid f).mpr hid)
  · intro m f
    cases f
    case ipVer => exact Prod.ext rfl (zeroExtend_high_nibble _)
    case ipIhl => exact Prod.ext rfl (zeroExtend_low_nibble _)
    all_goals rfl

/-- Settles O50: a field's bytes are its own, and the two nibbles of byte 0 are kept apart by the write. -/
theorem fieldsAreIndependent : Obligations.FieldsAreIndependent := by
  unfold Obligations.FieldsAreIndependent
  intro m f v hv
  exact ⟨fieldRead_fieldWrite_same m hv, fun g => fieldRead_fieldWrite_other m v⟩

end

section
/-! Installing the header checksums (spec/43_checksum_install.md R170 to R174). The value installed depends on the header's bytes
outside the field alone, so an installation makes no difference to a later one, its own or the other header's; and the header then
has the checksum 0, by the verify property (spec/40_checksum_engine.md R102). -/

namespace Sys2Proof.Machine

/-! ## The words of the two commands -/

theorem decode_insicmp : decode 0x00000012 = .ok .insicmp := decode_of_encode_eq rfl rfl
theorem decode_insip : decode 0x00000013 = .ok .insip := decode_of_encode_eq rfl rfl

/-! ## Regions of the buffer -/

theorem getElem?_region (m : Memory) (off : Nat) {len j : Nat} (h : j < len) :
    (m.region off len)[j]? = some (m.read (off + j)) := by
  simp [Memory.region, h]

theorem length_region (m : Memory) (off len : Nat) : (m.region off len).length = len := by
  simp [Memory.region]

/-- A region is the bytes that it covers. -/
theorem region_congr {m m' : Memory} {off len : Nat} (h : ∀ k, off ≤ k → k < off + len → m.read k = m'.read k) :
    m.region off len = m'.region off len :=
  List.map_congr_left fun j hj => h _ (by omega) (by have := List.mem_range.mp hj; omega)

/-- A half written into a region sets two bytes of it. -/
theorem region_memWrite_half (m : Memory) (off len j : Nat) (v : Half) :
    (memWrite m (off + j) (.half v)).region off len =
      ((m.region off len).set j (v.extractLsb' 8 8)).set (j + 1) (v.extractLsb' 0 8) := by
  apply List.ext_getElem
  · simp [Memory.region]
  · intro i _ _
    simp only [Memory.region, List.getElem_set, List.getElem_map, List.getElem_range, read_memWrite_half, Nat.add_assoc,
      Nat.add_left_cancel_iff, eq_comm]

/-! ## The value installed -/

/-- What an installation puts into the field at `a`: the checksum of the region with the field zeroed. -/
def fieldChecksum (a off len : Nat) (m : Memory) : Half := checksum ((memWrite m a (.half 0x0000)).region off len)

/-- The value installed depends on the bytes of the region outside the field alone. -/
theorem fieldChecksum_congr {m m' : Memory} {a off len : Nat}
    (h : ∀ k, off ≤ k → k < off + len → k ≠ a → k ≠ a + 1 → m.read k = m'.read k) :
    fieldChecksum a off len m = fieldChecksum a off len m' := by
  unfold fieldChecksum
  rw [region_congr fun k hlo hhi => ?_]
  rw [read_memWrite_half, read_memWrite_half]
  by_cases hlow : k = a + 1
  · rw [if_pos hlow, if_pos hlow]
  · by_cases hhigh : k = a
    · rw [if_neg hlow, if_pos hhigh, if_neg hlow, if_pos hhigh]
    · rw [h k hlo hhi hhigh hlow]

/-- The ICMP header's bytes, its checksum field zeroed (spec/43_checksum_install.md R170). -/
theorem fieldChecksum_icmp (m : Memory) : fieldChecksum 22 20 8 m =
    checksum [m.read 20, m.read 21, 0x00, 0x00, m.read 24, m.read 25, m.read 26, m.read 27] := by
  simp [fieldChecksum, Memory.region, List.range_succ, read_memWrite_half]

/-- The IPv4 header's bytes, its checksum field zeroed (spec/43_checksum_install.md R172). -/
theorem fieldChecksum_ip (m : Memory) : fieldChecksum 10 0 20 m =
    checksum [m.read 0, m.read 1, m.read 2, m.read 3, m.read 4, m.read 5, m.read 6, m.read 7, m.read 8, m.read 9, 0x00, 0x00,
      m.read 12, m.read 13, m.read 14, m.read 15, m.read 16, m.read 17, m.read 18, m.read 19] := by
  simp [fieldChecksum, Memory.region, List.range_succ, read_memWrite_half]

/-! ## The engine after an installation -/

section

variable (a off len : Nat) (e : Engine)

@[simp] theorem installChecksum_csum :
    (installChecksum a off len e).csum = (fieldChecksum a off len e.pkt).zeroExtend 32 := rfl

@[simp] theorem installChecksum_zero :
    (installChecksum a off len e).zero = decide (fieldChecksum a off len e.pkt = 0) := rfl

theorem read_installChecksum_high :
    (installChecksum a off len e).pkt.read a = (fieldChecksum a off len e.pkt).extractLsb' 8 8 := by
  rw [read_installChecksum, fieldChecksum]
  simp

theorem read_installChecksum_low :
    (installChecksum a off len e).pkt.read (a + 1) = (fieldChecksum a off len e.pkt).extractLsb' 0 8 := by
  rw [read_installChecksum, fieldChecksum]
  simp

variable {a off len e}

/-- What one byte holds after an installation depends on the value installed and on that byte. -/
theorem read_installChecksum_congr {e' : Engine} {k : Nat}
    (hvalue : fieldChecksum a off len e.pkt = fieldChecksum a off len e'.pkt) (hread : e.pkt.read k = e'.pkt.read k) :
    (installChecksum a off len e).pkt.read k = (installChecksum a off len e').pkt.read k := by
  rw [read_installChecksum, read_installChecksum, ← fieldChecksum, ← fieldChecksum, hvalue, hread]

/-- Installed again, the checksum is the same (spec/43_checksum_install.md R170). -/
theorem fieldChecksum_installChecksum_same :
    fieldChecksum a off len (installChecksum a off len e).pkt = fieldChecksum a off len e.pkt :=
  fieldChecksum_congr fun _ _ _ => read_installChecksum_outside off len

/-- An installation outside a region leaves the region's checksum (spec/43_checksum_install.md R173). -/
theorem fieldChecksum_installChecksum_apart {a' off' len' : Nat} (h : a + 1 < off' ∨ off' + len' ≤ a) :
    fieldChecksum a' off' len' (installChecksum a off len e).pkt = fieldChecksum a' off' len' e.pkt :=
  fieldChecksum_congr fun _ _ _ _ _ => read_installChecksum_outside off len (by omega) (by omega)

theorem read_installChecksum_again (k : Nat) :
    (installChecksum a off len (installChecksum a off len e)).pkt.read k = (installChecksum a off len e).pkt.read k := by
  rw [read_installChecksum, ← fieldChecksum, fieldChecksum_installChecksum_same]
  by_cases hlow : k = a + 1
  · rw [if_pos hlow, hlow, read_installChecksum_low]
  · by_cases hhigh : k = a
    · rw [if_neg hlow, if_pos hhigh, hhigh, read_installChecksum_high]
    · rw [if_neg hlow, if_neg hhigh]

end

/-! ## The two installations (spec/43_checksum_install.md R173) -/

/-- Bytes below 20 are none of the ICMP field's, and the others none of the IPv4 field's. -/
theorem read_installChecksum_comm (e : Engine) (k : Nat) :
    (installChecksum 10 0 20 (installChecksum 22 20 8 e)).pkt.read k =
      (installChecksum 22 20 8 (installChecksum 10 0 20 e)).pkt.read k := by
  rcases Nat.lt_or_ge k 20 with hip | hicmp
  · rw [read_installChecksum_outside 20 8 (by omega) (by omega)]
    exact read_installChecksum_congr (fieldChecksum_installChecksum_apart (by omega))
      (read_installChecksum_outside _ _ (by omega) (by omega))
  · rw [read_installChecksum_outside 0 20 (by omega) (by omega)]
    exact read_installChecksum_congr (fieldChecksum_installChecksum_apart (by omega)).symm
      (read_installChecksum_outside _ _ (by omega) (by omega)).symm

/-! ## Verifying (spec/43_checksum_install.md R174) -/

/-- The region of an installed checksum, its field at an even offset inside it, has the checksum 0. -/
theorem checksum_region_installChecksum {j len : Nat} (off : Nat) (e : Engine) (heven : j % 2 = 0) (hj : j + 1 < len)
    (hlen : len ≤ 131074) : checksum ((installChecksum (off + j) off len e).pkt.region off len) = 0 := by
  obtain ⟨-, -, -, -, -, hverify⟩ := checksumInstalledAtEvenOffsetVerifies
  have hzeroed : ∀ i, i = j ∨ i = j + 1 → ((memWrite e.pkt (off + j) (.half 0)).region off len)[i]? = some 0 := by
    rintro i (rfl | rfl) <;> rw [getElem?_region _ _ (by omega), read_memWrite_half]
    · simp
    · simp [Nat.add_assoc]
  rw [installChecksum, setResult_pkt, region_memWrite_half]
  exact hverify _ j (by rwa [length_region]) heven (by rwa [length_region]) (hzeroed _ (.inl rfl)) (hzeroed _ (.inr rfl))

/-- CSUMBUF of such a region writes 0 as long as the region's bytes are the installed ones. -/
theorem exec_csumbuf_verifies {off j len : Nat} {e : Engine} {u : State} (hin : off + len ≤ 28) (heven : j % 2 = 0)
    (hj : j + 1 < len)
    (hread : ∀ k, off ≤ k → k < off + len → u.engine.pkt.read k = (installChecksum (off + j) off len e).pkt.read k) :
    ∃ v, exec (.csumbuf off len) u = .next v ∧ v.engine.csum = 0x00000000 ∧ v.engine.zero = true := by
  refine ⟨_, exec_csumbuf_inside u hin, ?_⟩
  rw [region_congr hread, checksum_region_installChecksum off e heven hj (by omega)]
  exact ⟨rfl, rfl⟩

end Sys2Proof.Machine

open Sys2Proof Sys2Proof.Machine

/-- Settles O51: the word, then the buffer byte by byte, and the installation again. -/
theorem insicmpInstallsTheIcmpChecksum : Obligations.InsicmpInstallsTheIcmpChecksum := by
  unfold Obligations.InsicmpInstallsTheIcmpChecksum
  refine ⟨decode_insicmp, rejectsOtherBits_of_decode decode_insicmp rfl rfl, fun s => ?_⟩
  intro p r
  have hr : fieldChecksum 22 20 8 s.engine.pkt = r := fieldChecksum_icmp s.engine.pkt
  rw [← hr]
  exact ⟨_, exec_insicmp s, rfl, rfl, installChecksum_frame _ _ _ _, read_installChecksum_high _ _ _ _,
    read_installChecksum_low _ _ _ _, fun k => read_installChecksum_outside _ _, _, exec_insicmp _, read_installChecksum_again⟩

/-- Settles O52: the word, then the buffer byte by byte. -/
theorem insipInstallsTheIpChecksum : Obligations.InsipInstallsTheIpChecksum := by
  unfold Obligations.InsipInstallsTheIpChecksum
  refine ⟨decode_insip, rejectsOtherBits_of_decode decode_insip rfl rfl, fun s => ?_⟩
  intro p r
  have hr : fieldChecksum 10 0 20 s.engine.pkt = r := fieldChecksum_ip s.engine.pkt
  rw [← hr]
  exact ⟨_, exec_insip s, rfl, rfl, installChecksum_frame _ _ _ _, read_installChecksum_high _ _ _ _,
    read_installChecksum_low _ _ _ _, fun k => read_installChecksum_outside _ _⟩

/-- Settles O53: neither field lies in the other header. -/
theorem installationsCommute : Obligations.InstallationsCommute := by
  unfold Obligations.InstallationsCommute
  intro s
  have hip : fieldChecksum 10 0 20 (installChecksum 22 20 8 s.engine).pkt = fieldChecksum 10 0 20 s.engine.pkt :=
    fieldChecksum_installChecksum_apart (by omega)
  have hicmp : fieldChecksum 22 20 8 (installChecksum 10 0 20 s.engine).pkt = fieldChecksum 22 20 8 s.engine.pkt :=
    fieldChecksum_installChecksum_apart (by omega)
  refine ⟨_, _, _, _, exec_insicmp s, exec_insip _, exec_insip s, exec_insicmp _, read_installChecksum_comm s.engine, ?_⟩
  simp [hip, hicmp]

/-- Settles O54: both fields are at even offsets of their headers. -/
theorem installedChecksumsVerify : Obligations.InstalledChecksumsVerify := by
  unfold Obligations.InstalledChecksumsVerify
  refine fun s t u => ⟨fun h hread => ?_, fun h hread => ?_⟩
  · obtain rfl := Host.Outcome.next.inj ((exec_insicmp s).symm.trans h)
    exact exec_csumbuf_verifies (j := 2) (by decide) (by decide) (by decide) hread
  · obtain rfl := Host.Outcome.next.inj ((exec_insip s).symm.trans h)
    exact exec_csumbuf_verifies (j := 10) (by decide) (by decide) (by decide) fun k _ => hread k

end

section
/-! The control command (spec/44_control.md R190): NOP's one word, and its effect. -/

namespace Sys2Proof.Machine

theorem decode_nop : decode 0x00000000 = .ok .nop := decode_of_encode_eq rfl rfl

@[simp] theorem exec_nop (s : State) : exec .nop s = .next s := rfl

end Sys2Proof.Machine

open Sys2Proof Sys2Proof.Machine

/-- Settles O29: the all-zero word is NOP's only one, and NOP answers the state it was given. -/
theorem nopChangesNothing : Obligations.NopChangesNothing := by
  unfold Obligations.NopChangesNothing
  exact ⟨decode_nop, rejectsOtherBits_of_decode decode_nop rfl rfl, exec_nop⟩

end

section
/-! Errors (spec/60_exceptions.md R200 to R210). No check and no result looks at `ERR`, so an access made with `ERR` 1 and the same
access made with `ERR` 0 either both raise one error or both leave the same engine but for `ERR`. That is said once, level by level
from the commands to the accesses (`IgnoresErr`), together with what the error records. -/

namespace Sys2Proof.Machine

/-! ## What does not depend on `ERR` -/

/-- `s` with another `ERR`. -/
def State.withErr (s : State) (x : Bool) : State := s.withEngine { s.engine with err := x }

@[simp] theorem withErr_engine (s : State) (x : Bool) : (s.withErr x).engine = { s.engine with err := x } := rfl

/-- `ERR` set to the value it has. -/
theorem withErr_eq_self {s : State} {x : Bool} (h : s.engine.err = x) : s.withErr x = s := by
  subst h
  rfl

/-- `IgnoresErr info f s`: whatever `ERR` is in `s`, `f` raises one error there, with the record `info`, and does nothing else to
the engine, or it raises none and leaves the same engine but for `ERR`, which it keeps or clears. -/
inductive IgnoresErr (info : Word) (f : State → Result) (s : State) : Prop
  | raises (c : ErrorCode)
      (h : ∀ x, ∃ t, f (s.withErr x) = .next t ∧ t.engine = raiseError c info (s.withErr x).engine)
  | completes (e : Engine) (keep : Bool)
      (h : ∀ x, ∃ t, f (s.withErr x) = .next t ∧ t.engine = { e with err := keep && x })

section

variable {info : Word} {f : State → Result} {s t u : State}

/-- What stores into the buffer alone, the same bytes whatever `ERR` is. -/
theorem IgnoresErr.stores (m : Memory)
    (h : ∀ x, f (s.withErr x) = .next ((s.withErr x).withEngine { (s.withErr x).engine with pkt := m })) :
    IgnoresErr info f s :=
  .completes { s.engine with pkt := m } true fun x => ⟨_, h x, rfl⟩

/-- What leaves `ERR` 1 from `ERR` 0 raises an error, from `s` as well. -/
theorem IgnoresErr.raises_of_err (h : IgnoresErr info f s) (ht : f s = .next t) (hu : f (s.withErr false) = .next u)
    (herr : u.engine.err = true) : ∃ c, t.engine = raiseError c info s.engine := by
  obtain ⟨c, h⟩ | ⟨e, keep, h⟩ := h
  · obtain ⟨t', ht', he⟩ := h s.engine.err
    cases ht'.symm.trans ht
    exact ⟨c, he⟩
  · obtain ⟨u', hu', he⟩ := h false
    cases hu'.symm.trans hu
    simp [he] at herr

/-- What leaves `ERR` 0 from `ERR` 0 leaves the same engine from `s`, but for `ERR`. -/
theorem IgnoresErr.completes_of_clear (h : IgnoresErr info f s) (ht : f s = .next t) (hu : f (s.withErr false) = .next u)
    (hclear : u.engine.err = false) : t.engine = { u.engine with err := t.engine.err } := by
  obtain ⟨c, h⟩ | ⟨e, keep, h⟩ := h
  · obtain ⟨u', hu', he⟩ := h false
    cases hu'.symm.trans hu
    simp [he] at hclear
  · obtain ⟨t', ht', het⟩ := h s.engine.err
    obtain ⟨u', hu', heu⟩ := h false
    cases ht'.symm.trans ht
    cases hu'.symm.trans hu
    rw [het, heu]

/-- What leaves `ERR` 1 from `s` with `ERR` 0 has raised one error and done nothing else to the engine. -/
theorem IgnoresErr.raised (h : IgnoresErr info f s) (hs : s.engine.err = false) (ht : f s = .next t)
    (herr : t.engine.err = true) : ∃ c, t.engine = raiseError c info s.engine :=
  h.raises_of_err ht ((withErr_eq_self hs).symm ▸ ht) herr

end

/-! ## Commands -/

theorem feedByte_with_err (b : Byte) (e : Engine) (x : Bool) :
    feedByte b { e with err := x } = { feedByte b e with err := x } := by
  cases h : e.odd
  · rw [feedByte_even b e h, feedByte_even b { e with err := x } h]
  · rw [feedByte_odd b e h, feedByte_odd b { e with err := x } h]

theorem feedBytes_with_err (bs : List Byte) (e : Engine) (x : Bool) :
    feedBytes bs { e with err := x } = { feedBytes bs e with err := x } := by
  induction bs generalizing e with
  | nil => rfl
  | cons b bs ih => rw [feedBytes_cons, feedBytes_cons, feedByte_with_err, ih]

theorem installChecksum_with_err (a off len : Nat) (e : Engine) (x : Bool) :
    installChecksum a off len { e with err := x } = { installChecksum a off len e with err := x } := rfl

/-- The checks of CSUMBUF, FSET and FGET read the operands and `DATA` alone, and no command's result depends on `ERR`. -/
theorem exec_ignoresErr (i : Instr) (s : State) : IgnoresErr (encode i) (exec i) s := by
  cases i
  case nop => exact .completes s.engine true fun _ => ⟨_, exec_nop _, rfl⟩
  case clr => exact .completes (clearStream s.engine) true fun _ => ⟨_, rfl, rfl⟩
  case feed8 =>
    exact .completes (feedBytes [s.engine.data.extractLsb' 0 8] s.engine) true fun x =>
      ⟨_, rfl, feedBytes_with_err _ s.engine x⟩
  case feed16 =>
    exact .completes (feedBytes [s.engine.data.extractLsb' 8 8, s.engine.data.extractLsb' 0 8] s.engine) true fun x =>
      ⟨_, rfl, feedBytes_with_err _ s.engine x⟩
  case feed32 =>
    exact .completes (feedBytes (wordBytes s.engine.data) s.engine) true fun x => ⟨_, rfl, feedBytes_with_err _ s.engine x⟩
  case final => exact .completes (finish s.engine) true fun _ => ⟨_, rfl, rfl⟩
  case pktz => exact .stores (zeroBuffer s.engine.pkt) fun _ => exec_pktz _
  case build =>
    exact .stores (buildHeaders s.engine.src s.engine.dst s.engine.pid s.engine.pkt) fun _ => exec_build _
  case insicmp =>
    exact .completes (installChecksum 22 20 8 s.engine) true fun x =>
      ⟨_, exec_insicmp _, installChecksum_with_err _ _ _ s.engine x⟩
  case insip =>
    exact .completes (installChecksum 10 0 20 s.engine) true fun x =>
      ⟨_, exec_insip _, installChecksum_with_err _ _ _ s.engine x⟩
  case csumbuf off len =>
    obtain hout | hin := Nat.lt_or_ge 28 (off + len)
    · exact .raises _ fun _ => ⟨_, exec_csumbuf_outside _ hout, rfl⟩
    · exact .completes (setResult (checksum (s.engine.pkt.region off len)) s.engine) true fun _ =>
        ⟨_, exec_csumbuf_inside _ hin, rfl⟩
  case fset fid =>
    cases hf : fieldOfId fid with
    | none => exact .raises _ fun _ => ⟨_, exec_fset_reserved _ ((fieldOfId_none fid).mp hf), rfl⟩
    | some f =>
      cases hv : fitsField f s.engine.data with
      | false => exact .raises _ fun _ => ⟨_, exec_fset_wide _ hf hv, rfl⟩
      | true => exact .stores (fieldWrite s.engine.pkt f s.engine.data) fun _ => exec_fset_fits _ hf hv
  case fget fid =>
    cases hf : fieldOfId fid with
    | none => exact .raises _ fun _ => ⟨_, exec_fget_reserved _ ((fieldOfId_none fid).mp hf), rfl⟩
    | some f =>
      exact .completes { s.engine with fval := fieldRead s.engine.pkt f } true fun _ => ⟨_, exec_fget_field _ hf, rfl⟩

/-- The decoder reads no state at all (spec/30_encoding.md R84). -/
theorem execute_ignoresErr (w : Word) (s : State) : IgnoresErr w (execute w) s := by
  cases hd : decode w with
  | error c => exact .raises _ fun _ => ⟨_, execute_of_error _ hd, rfl⟩
  | ok i =>
    have hexec : execute w = exec i := funext fun _ => execute_of_ok _ hd
    rw [hexec, ← encode_of_decode hd]
    exact exec_ignoresErr i s

/-! ## Accesses -/

/-- What `EINFO` records of an access that raises an error (spec/60_exceptions.md R205). -/
def Access.errorRecord : Access → Word
  | .read n off => badAccessInfo false n off
  | .write off (.word w) => if off = 0x00 then w else badAccessInfo true .word off
  | .write off v => badAccessInfo true v.width off

/-- A write that is no command has the record of a bad access. -/
theorem errorRecord_write {off : Offset} {v : Value} (h : ∀ w, v = .word w → off ≠ 0x00) :
    (Access.write off v).errorRecord = badAccessInfo true v.width off := by
  cases v
  case word w => exact if_neg (h w rfl)
  all_goals rfl

theorem errorRecord_write_of_regAt_none {off : Offset} {v : Value} (h : regAt v.width off = none) :
    (Access.write off v).errorRecord = badAccessInfo true v.width off := by
  refine errorRecord_write ?_
  rintro w rfl rfl
  cases h

/-- Of the 32-bit writes to a register only that of `STATUS` changes `ERR` but by an error, and it only clears it. -/
theorem writeReg_ignoresErr (r : Reg) (w : Word) (s : State) :
    IgnoresErr (Access.write (regOffset r) (.word w)).errorRecord (writeReg r w) s := by
  cases r
  case cmd => exact execute_ignoresErr w s
  case data => exact .completes { s.engine with data := w } true fun _ => ⟨_, rfl, rfl⟩
  case src => exact .completes { s.engine with src := w } true fun _ => ⟨_, rfl, rfl⟩
  case dst => exact .completes { s.engine with dst := w } true fun _ => ⟨_, rfl, rfl⟩
  case pid => exact .completes { s.engine with pid := w } true fun _ => ⟨_, rfl, rfl⟩
  case status =>
    refine .completes (writeStatus w s.engine) (!w.getLsbD 3) fun _ => ⟨_, rfl, ?_⟩
    simp only [withEngine_engine, withErr_engine, writeStatus_eq, Bool.and_comm]
  all_goals exact .raises .badAccess fun _ => ⟨_, rfl, rfl⟩

/-- No access's effect on the engine depends on `ERR` (spec/60_exceptions.md R203, R208). -/
theorem access_ignoresErr (agent : Nat) (a : Access) (s : State) :
    IgnoresErr a.errorRecord (performEvent (.access agent a)) s := by
  cases a with
  | read n off =>
    cases hr : regAt n off with
    | some r =>
      refine .completes s.engine true fun _ => ⟨_, perform_read _ agent off n, ?_⟩
      rw [hostRead_reg _ hr]
      rfl
    | none =>
      cases hk : windowIndex n off with
      | some k => exact .completes s.engine true fun _ => ⟨_, perform_read_window _ agent hk, rfl⟩
      | none => exact .raises _ fun _ => ⟨_, perform_read_bad _ agent hr hk, rfl⟩
  | write off v =>
    obtain ⟨r, w, rfl, rfl, -⟩ | ⟨k, -, hk, -⟩ | ⟨hr, hk, -⟩ := hostWrite_cases off v s
    · have hreg : performEvent (.access agent (.write (regOffset r) (.word w))) = writeReg r w :=
        funext (perform_regWrite agent r w)
      rw [hreg]
      exact writeReg_ignoresErr r w s
    · exact .stores (memWrite s.engine.pkt k v) fun _ => perform_write_window _ agent hk
    · rw [errorRecord_write_of_regAt_none hr]
      exact .raises _ fun _ => ⟨_, perform_write_bad _ agent hr hk, rfl⟩

/-! ## What reads return -/

/-- A read of any register but `STATUS` does not show `ERR` (spec/20_memory.md R59). -/
theorem readReg_with_err {r : Reg} (e : Engine) (x : Bool) (h : r ≠ .status) :
    ({ e with err := x } : Engine).readReg r = e.readReg r := by
  cases r
  case status => exact absurd rfl h
  all_goals rfl

theorem hostRead_value_with_err {n : Width} {off : Offset} (e : Engine) (x : Bool)
    (h : Access.read n off ≠ .read .word 0x08) : (hostRead off n { e with err := x }).1 = (hostRead off n e).1 := by
  cases hr : regAt n off with
  | some r =>
    obtain ⟨rfl, rfl⟩ := regAt_some hr
    have hne : r ≠ .status := by
      rintro rfl
      exact h rfl
    rw [hostRead_reg _ hr, hostRead_reg _ hr, readReg_with_err e x hne]
  | none =>
    cases hk : windowIndex n off with
    | some k => rw [hostRead_window _ hr hk, hostRead_window _ hr hk]
    | none => rw [hostRead_bad _ hr hk, hostRead_bad _ hr hk]

/-- `STATUS` with `ERR` 0 has bit 3 clear (spec/10_state.md R30). -/
theorem statusWord_bit3_clear (e : Engine) : ({ e with err := false } : Engine).statusWord.getLsbD 3 = false := by
  simp only [Engine.statusWord, BitVec.getLsbD_append]
  rfl

/-- Bit 3 of a word laid out as `STATUS` is, set. -/
theorem append_or_bit3 (p : Byte) (c : BitVec 4) (o v z : BitVec 1) :
    0#16 ++ (p ++ (c ++ (1#1 ++ (o ++ (v ++ z))))) =
      0#16 ++ (p ++ (c ++ (0#1 ++ (o ++ (v ++ z))))) ||| 0#16 ++ (0#8 ++ (0#4 ++ (1#1 ++ (0#1 ++ (0#1 ++ 0#1))))) := by
  simp only [BitVec.or_append, BitVec.or_zero, BitVec.zero_or]

/-- `STATUS` with `ERR` 1 is `STATUS` with `ERR` 0 and bit 3 set (spec/10_state.md R30). -/
theorem statusWord_bit3_set {e : Engine} (h : e.err = true) :
    e.statusWord = ({ e with err := false } : Engine).statusWord ||| 0x00000008 := by
  rw [Engine.statusWord, h]
  exact append_or_bit3 _ _ _ _ _

/-! ## The record of an error -/

theorem raiseError_ecode (c : ErrorCode) (info : Word) {e : Engine} (h : e.err = false) : (raiseError c info e).ecode = c.bits := by
  rw [raiseError_first c info e h]

theorem raiseError_einfo (c : ErrorCode) (info : Word) {e : Engine} (h : e.err = false) : (raiseError c info e).einfo = info := by
  rw [raiseError_first c info e h]

/-- The fields of a bad access's record (spec/60_exceptions.md R205). -/
theorem badAccessInfo_fields (wr : Bool) (n : Width) (off : Offset) :
    (badAccessInfo wr n off).extractLsb' 0 8 = BitVec.ofNat 8 off.val ∧
    (badAccessInfo wr n off).extractLsb' 8 2 = n.szBits ∧ (badAccessInfo wr n off).getLsbD 10 = wr ∧
    (badAccessInfo wr n off).extractLsb' 11 21 = 0 := by
  unfold badAccessInfo
  refine ⟨?_, ?_, ?_, ?_⟩
  · rw [BitVec.extractLsb'_append_eq_of_add_le (by decide), BitVec.extractLsb'_append_eq_of_add_le (by decide),
      BitVec.extractLsb'_append_eq_right]
  · rw [BitVec.extractLsb'_append_eq_of_add_le (by decide), BitVec.extractLsb'_append_eq_of_add_le (by decide),
      BitVec.extractLsb'_append_eq_left]
  · simp only [BitVec.getLsbD_append]
    simp
  · exact BitVec.extractLsb'_append_eq_left

/-- `sz` is the logarithm of the width, and 3 is the logarithm of none. -/
theorem szBits_width (n : Width) : 2 ^ n.szBits.toNat = n.bytes ∧ n.szBits ≠ 3 := by
  cases n <;> decide

/-! ## The first failing check -/

section

variable {rsv b a op : Byte} {w : Word} {i : Instr} {c : ErrorCode} {s : State}

/-- A word with the opcode of a command without operands and a nonzero field beside it (spec/30_encoding.md R83, R84). -/
theorem decode_word_of_no_operands (hop : op.toNat ∈ [0x00, 0x01, 0x02, 0x03, 0x04, 0x05, 0x10, 0x11, 0x12, 0x13])
    (h : rsv ≠ 0 ∨ b ≠ 0 ∨ a ≠ 0) : decode (rsv ++ (b ++ (a ++ op)) : Word) = .error .reservedField := by
  have hfields := fields_of_append rsv b a op
  generalize (rsv ++ (b ++ (a ++ op)) : Word) = w at hfields ⊢
  obtain ⟨hwop, hwa, hwb, hwrsv⟩ := hfields
  simp only [← hwop, List.mem_cons, List.not_mem_nil, or_false] at hop
  simp only [ne_eq, ← byte_toNat_eq_zero, ← hwa, ← hwb, ← hwrsv] at h
  have hA : usesA (wordOp w) = false := by
    simp only [usesA_eq_false, List.mem_cons, List.not_mem_nil, or_false]
    omega
  have hB : usesB (wordOp w) = false := by
    rw [usesB_eq_false]
    omega
  obtain ⟨i, hi⟩ : ∃ i, instrOfOp (wordOp w) (wordA w) (wordB w) = some i := by
    refine Option.ne_none_iff_exists'.mp fun hn => (instrOfOp_eq_none _ _ _).mp hn ?_
    simp only [List.mem_cons, List.not_mem_nil, or_false]
    omega
  exact decode_of_reserved hi (by tauto)

/-- A command whose own check fails raises its error with the word as the record (spec/60_exceptions.md R205). -/
theorem execute_of_exec_raises (hd : decode w = .ok i)
    (h : exec i s = .next (s.withEngine (raiseError c (encode i) s.engine))) :
    execute w s = .next (s.withEngine (raiseError c w s.engine)) := by
  rw [execute_of_ok s hd, h, encode_of_decode hd]

end

end Sys2Proof.Machine

open Sys2Proof Sys2Proof.Machine

/-- Settles O22: with `ERR` 0 the access raised an error and did nothing else; with `ERR` 1 it raises the same one, which is
not recorded. -/
theorem errorsArePrecise : Obligations.ErrorsArePrecise := by
  unfold Obligations.ErrorsArePrecise
  refine fun s t agent a h => ⟨fun hs ht => ?_, fun hs u hu hraised => ?_⟩
  · obtain ⟨c, hc⟩ := (access_ignoresErr agent a s).raised hs h ht
    have hframe := raiseError_frame c a.errorRecord s.engine
    rwa [hs, ← hc] at hframe
  · obtain ⟨c, hc⟩ := (access_ignoresErr agent a s).raises_of_err h hu hraised
    rw [hc, raiseError_later _ _ _ hs]

/-- Settles O23: the two engines differ in `ERR` at most, and only a read of `STATUS` shows it. -/
theorem errorFlagDoesNotChangeExecution : Obligations.ErrorFlagDoesNotChangeExecution := by
  unfold Obligations.ErrorFlagDoesNotChangeExecution
  intro s t u agent a hs hstatus h hu hclear
  have hstays : t.engine.err = true := by
    refine (performEvent_effect h).err_stays ?_ hs
    rintro (hreset | ⟨_, w, hw, hw3⟩)
    · cases hreset
    · cases hw
      rw [hstatus w rfl] at hw3
      cases hw3
  have hengine := (access_ignoresErr agent a s).completes_of_clear h hu hclear
  rw [hstays] at hengine
  refine ⟨hengine, fun ha => ?_, ?_⟩
  · cases a with
    | read n off =>
      cases h
      cases hu
      simp [hostRead_value_with_err _ _ ha]
    | write off v =>
      obtain ⟨_, he⟩ := hostWrite_next off v s
      obtain ⟨_, he0⟩ := hostWrite_next off v (s.withErr false)
      cases he.symm.trans h
      cases he0.symm.trans hu
      rfl
  · rintro rfl
    cases h
    cases hu
    refine ⟨_, statusWord_bit3_clear s.engine, rfl, ?_⟩
    rw [← statusWord_bit3_set hs]
    rfl

/-- Settles O24: the decoder's errors, then those of the commands with a check of their own. -/
theorem commandsRaiseOnlyTheirOwnCodes : Obligations.CommandsRaiseOnlyTheirOwnCodes := by
  unfold Obligations.CommandsRaiseOnlyTheirOwnCodes
  intro w s t hs h ht
  have hcode (c : ErrorCode) (info : Word) : (s.withEngine (raiseError c info s.engine)).engine.ecode = c.bits :=
    raiseError_ecode c info hs
  obtain ⟨c, hd, rfl⟩ | ⟨i, hd, hx⟩ := execute_cases h
  · cases c
    · exact .inl ⟨hd, hcode _ _⟩
    · exact .inr (.inl ⟨hd, hcode _ _⟩)
  · obtain ⟨off, len, rfl, -, rfl⟩ | ⟨fid, rfl, -, rfl⟩ | ⟨fid, f, rfl, -, -, rfl⟩ | ⟨fid, rfl, -, rfl⟩ | ⟨hsame, -⟩ :=
      exec_error_cases hx
    · exact .inr (.inr (.inl ⟨off, len, hd, hcode _ _⟩))
    · exact .inr (.inr (.inr (.inl ⟨fid, hd, .inl (hcode _ _)⟩)))
    · exact .inr (.inr (.inr (.inl ⟨fid, hd, .inr (hcode _ _)⟩)))
    · exact .inr (.inr (.inr (.inr ⟨fid, hd, hcode _ _⟩)))
    · simp [hsame, hs] at ht

/-- Settles O25: opcode by opcode, the decoder's answer and then the command's own check. -/
theorem firstFailingCheckDecidesTheCode : Obligations.FirstFailingCheckDecidesTheCode := by
  unfold Obligations.FirstFailingCheckDecidesTheCode
  intro rsv b a op s w raises
  refine ⟨fun hop => ?_, fun hop hres => execute_of_error s (decode_word_of_no_operands hop hres), ?_, ?_, ?_, ?_, ?_, ?_, ?_⟩
  · obtain ⟨hwop, -⟩ := fields_of_append rsv b a op
    exact execute_of_error s (decode_of_unknown ((instrOfOp_eq_none _ _ _).mpr (hwop ▸ hop)))
  · rintro rfl hres
    exact execute_of_error s ((decode_csumbuf_word rsv b a).trans (if_neg hres))
  · rintro rfl rfl hrange
    exact execute_of_exec_raises ((decode_csumbuf_word 0 b a).trans (if_pos rfl)) (exec_csumbuf_outside s hrange)
  · rintro rfl hres
    exact execute_of_error s ((decode_word_of_usesA (i := .fset a.toNat) rfl rfl rfl).trans (if_neg (by tauto)))
  · rintro rfl rfl rfl hfid
    exact execute_of_exec_raises ((decode_word_of_usesA rfl rfl rfl).trans (if_pos ⟨rfl, rfl⟩)) (exec_fset_reserved s hfid)
  · rintro rfl rfl rfl f hf hwide
    exact execute_of_exec_raises ((decode_word_of_usesA rfl rfl rfl).trans (if_pos ⟨rfl, rfl⟩))
      (exec_fset_wide s hf (decide_eq_false (Nat.not_lt.mpr hwide)))
  · rintro rfl hres
    exact execute_of_error s ((decode_word_of_usesA (i := .fget a.toNat) rfl rfl rfl).trans (if_neg (by tauto)))
  · rintro rfl rfl rfl hfid
    exact execute_of_exec_raises ((decode_word_of_usesA rfl rfl rfl).trans (if_pos ⟨rfl, rfl⟩)) (exec_fget_reserved s hfid)

/-- Settles O15: the record of each access, and the layout of that of a bad one. -/
theorem errorRecordHoldsTheWordOrTheAccess : Obligations.ErrorRecordHoldsTheWordOrTheAccess := by
  unfold Obligations.ErrorRecordHoldsTheWordOrTheAccess
  refine ⟨fun w s t hs h ht => ?_, fun s t agent n off hs h ht => ?_, fun s t agent off v hs hcmd h ht => ?_,
    fun wr n off => ?_⟩
  · obtain ⟨c, hc⟩ := (execute_ignoresErr w s).raised hs h ht
    rw [hc, raiseError_einfo _ _ hs]
  · obtain ⟨c, hc⟩ := (access_ignoresErr agent _ s).raised hs h ht
    rw [hc, raiseError_einfo _ _ hs]
    rfl
  · obtain ⟨c, hc⟩ := (access_ignoresErr agent _ s).raised hs h ht
    rw [hc, raiseError_einfo _ _ hs, errorRecord_write hcmd]
  · obtain ⟨hoff, hsz, hwr, hzero⟩ := badAccessInfo_fields wr n off
    obtain ⟨hpow, hne⟩ := szBits_width n
    refine ⟨?_, hsz ▸ hpow, hsz ▸ hne, hwr, hzero⟩
    rw [hoff, BitVec.toNat_ofNat]
    exact Nat.mod_eq_of_lt (by omega)

/-- Settles O21: the two cases of the step, and the value of a bad read. -/
theorem raisingAnErrorRecordsTheFirst : Obligations.RaisingAnErrorRecordsTheFirst := by
  unfold Obligations.RaisingAnErrorRecordsTheFirst
  refine fun c info e => ⟨raiseError_first c info e, raiseError_later c info e, fun s agent n off hr hk => ?_⟩
  rw [step_waiting, perform_read_bad s agent hr hk]
  cases n <;> rfl

/-- Settles O26, from the `STATUS` write field by field; with `ERR` 0 the invariant says that there is nothing to clear. -/
theorem statusWriteWithBit3IsTheErrorReturn : Obligations.StatusWriteWithBit3IsTheErrorReturn := by
  unfold Obligations.StatusWriteWithBit3IsTheErrorReturn
  intro s agent v h3
  refine ⟨_, perform_regWrite agent .status v s, ?_⟩
  rw [writeStatus_eq, h3]
  refine ⟨Bool.and_false _, rfl, rfl, rfl, rfl, fun hinv herr h1 => ?_⟩
  obtain ⟨hcode, hinfo⟩ := hinv.ecode_err herr
  rw [h1]
  ext1 <;> simp [hcode, hinfo, herr]

end

section
/-! Reset (spec/70_reset_and_hazards.md R230, R231), and two sequences of a host: the one that undoes all that a host can write
(R232) and the construction of an Echo Request (R240). Each sequence is run once, to an engine written out; what it claims is then
read off that engine. -/

namespace Sys2Proof.Machine

/-! ## Reset -/

theorem perform_reset (s : State) : performEvent .reset s = .next (s.withEngine Engine.reset) := rfl

theorem odd_reset : Engine.reset.odd = false := by decide

/-- FINAL with nothing fed folds 0 (spec/70_reset_and_hazards.md R231). -/
theorem exec_final_reset :
    exec .final State.reset = .next (State.reset.withEngine (setResult 0xFFFF Engine.reset)) := rfl

/-! ## The events of a host's lines -/

section

variable (agent : Nat) (es : List PortEvent) {s t : State}

/-- A register written first in a run. -/
theorem runEvents_write {r : Reg} {v : Word} (h : writeReg r v s = .next t) :
    runEvents (regWrite agent r v :: es) s = runEvents es t :=
  runEvents_cons ((perform_regWrite agent r v s).trans h)

/-- A command's word written first in a run (spec/30_encoding.md R92). -/
theorem runEvents_command {i : Instr} (hi : i.wellFormed = true) (h : exec i s = .next t) :
    runEvents (regWrite agent .cmd (encode i) :: es) s = runEvents es t :=
  runEvents_cons ((perform_command agent s (decode_encode hi)).trans h)

end

/-! ## The host's sequence for a fresh engine (spec/70_reset_and_hazards.md R232) -/

/-- A byte that no cell lists reads as the reset contents (log entry 8). -/
theorem read_unlisted {m : Memory} {k : Nat} (h : ∀ c ∈ m, c.1 ≠ k) : m.read k = unlistedByte := by
  induction m with
  | nil => rfl
  | cons c m ih =>
    obtain ⟨hc, hm⟩ := List.forall_mem_cons.mp h
    rw [Memory.read, if_neg hc, ih hm]

/-- PKTZ leaves a canonical buffer in its reset state (spec/41_packet_assembler.md R130, R131). -/
theorem zeroBuffer_eq_nil {m : Memory} (hm : m.wf = true) : zeroBuffer m = [] := by
  refine wf_ext (wf_zeroBuffer hm) wf_reset fun k => ?_
  rw [read_zeroBuffer]
  split
  · rfl
  · next hk =>
    obtain ⟨-, hcells⟩ := (wf_iff m).mp hm
    exact read_unlisted fun c hc heq => hk (heq ▸ (hcells c hc).1)

/-- The accesses of the sequence. -/
def clearingEvents (agent : Nat) : List PortEvent :=
  [regWrite agent .data 0, regWrite agent .src 0, regWrite agent .dst 0, regWrite agent .pid 0,
    regWrite agent .cmd (encode .clr), regWrite agent .cmd (encode .pktz), regWrite agent .status 0x0000000A]

/-- The engine after the sequence, for any buffer. -/
def clearedEngine (e : Engine) : Engine :=
  writeStatus 0x0000000A
    { clearStream { e with data := 0, src := 0, dst := 0, pid := 0 } with pkt := zeroBuffer e.pkt }

theorem runEvents_clearing (agent : Nat) (s : State) :
    runEvents (clearingEvents agent) s = .next (s.withEngine (clearedEngine s.engine)) := by
  rw [clearingEvents, runEvents_write agent _ rfl, runEvents_write agent _ rfl, runEvents_write agent _ rfl,
    runEvents_write agent _ rfl, runEvents_command agent _ rfl rfl, runEvents_command agent _ rfl (exec_pktz _),
    runEvents_write agent _ rfl]
  rfl

theorem clearedEngine_eq {e : Engine} (hm : e.pkt.wf = true) :
    clearedEngine e = { Engine.reset with csum := e.csum, fval := e.fval, zero := e.zero } := by
  rw [clearedEngine, zeroBuffer_eq_nil hm, writeStatus_eq]
  ext1 <;> simp [Engine.reset]

/-! ## The construction sequence (spec/30_encoding.md R93, spec/70_reset_and_hazards.md R240) -/

/-- The accesses of PREP. -/
def prepEvents (agent : Nat) (src dst pid : Word) : List PortEvent :=
  [regWrite agent .src src, regWrite agent .dst dst, regWrite agent .pid pid, regWrite agent .cmd (encode .pktz),
    regWrite agent .cmd (encode .build), regWrite agent .cmd (encode .insicmp), regWrite agent .cmd (encode .insip)]

/-- The request before its checksums are installed. -/
def requestHeaders (src dst pid : Word) (m : Memory) : Memory := buildHeaders src dst pid (zeroBuffer m)

/-- The engine after PREP. -/
def preparedEngine (src dst pid : Word) (e : Engine) : Engine :=
  installChecksum 10 0 20 (installChecksum 22 20 8
    { e with src := src, dst := dst, pid := pid, pkt := requestHeaders src dst pid e.pkt })

theorem runEvents_prep (agent : Nat) (src dst pid : Word) (s : State) :
    runEvents (prepEvents agent src dst pid) s = .next (s.withEngine (preparedEngine src dst pid s.engine)) := by
  rw [prepEvents, runEvents_write agent _ rfl, runEvents_write agent _ rfl, runEvents_write agent _ rfl,
    runEvents_command agent _ rfl (exec_pktz _), runEvents_command agent _ rfl (exec_build _),
    runEvents_command agent _ rfl (exec_insicmp _), runEvents_command agent _ rfl (exec_insip _)]
  simp only [runEvents, withEngine_engine, withEngine_withEngine, preparedEngine, requestHeaders]

/-- PKTZ has cleared the one field that BUILD leaves, so every field has its built value (spec/42_header_builder.md R141). -/
theorem fieldRead_requestHeaders (src dst pid : Word) (m : Memory) (f : Field) :
    fieldRead (requestHeaders src dst pid m) f = builtField src dst pid f := by
  by_cases hf : f = .ipFrag
  · subst hf
    have hzero (k : Nat) (hk : k = 6 ∨ k = 7) : (requestHeaders src dst pid m).read k = 0 := by
      rw [requestHeaders, read_buildHeaders_kept _ _ _ _ (by omega), read_zeroBuffer, if_pos (by omega)]
    simp only [fieldRead, fieldAt, fieldBytes, memRead, memRead16, hzero 6 (.inl rfl), hzero 7 (.inr rfl)]
    rfl
  · exact fieldRead_buildHeaders _ _ _ _ hf

/-- The ICMP header of a request with no identifier, sequence number or payload has one checksum. -/
theorem fieldChecksum_requestHeaders (src dst pid : Word) (m : Memory) :
    fieldChecksum 22 20 8 (requestHeaders src dst pid m) = 0xF7FF := by
  have hzero (k : Nat) (hlo : 20 < k) (hhi : k < 28) : (requestHeaders src dst pid m).read k = 0 := by
    rw [requestHeaders, read_buildHeaders]
    simp (disch := omega) only [if_neg, if_pos]
  have htype : (requestHeaders src dst pid m).read 20 = 0x08 := read_buildHeaders _ _ _ _ _
  rw [fieldChecksum_icmp, htype, hzero 21, hzero 24, hzero 25, hzero 26, hzero 27]
  · rfl
  all_goals decide

/-! ## The fields after a checksum is installed -/

section

variable {f : Field} (hf : fieldBytes f = .half) (off len : Nat) (e : Engine)

include hf

/-- An installation leaves every field but its own (spec/43_checksum_install.md R170, R172). -/
theorem fieldRead_installChecksum_other {g : Field} (h : g ≠ f) :
    fieldRead (installChecksum (fieldAt f) off len e).pkt g = fieldRead e.pkt g := by
  refine fieldRead_congr fun k hlo hhi => ?_
  have hbytes : (fieldBytes f).bytes = 2 := by rw [hf]; rfl
  obtain hlow | hhigh | ⟨rfl, -⟩ | ⟨rfl, -⟩ := fields_apart f g h
  · exact read_installChecksum_outside off len (by omega) (by omega)
  · exact read_installChecksum_outside off len (by omega) (by omega)
  · cases hf
  · cases hf

/-- Its own field holds the value installed. -/
theorem fieldRead_installChecksum_same :
    fieldRead (installChecksum (fieldAt f) off len e).pkt f =
      (fieldChecksum (fieldAt f) off len e.pkt).zeroExtend 32 := by
  have hbyte : ¬(f = .ipVer ∨ f = .ipIhl) := by rintro (rfl | rfl) <;> cases hf
  have hread : memRead (installChecksum (fieldAt f) off len e).pkt (fieldAt f) .half =
    .half (fieldChecksum (fieldAt f) off len e.pkt) := memRead_memWrite_same _ _ (.half _)
  rw [fieldRead_eq_memRead hbyte, hf, hread]
  rfl

end

/-! ## The engine after PREP -/

section

variable (src dst pid : Word) (e : Engine)

theorem fieldRead_prepared {f : Field} (hip : f ≠ .ipSum) (hicmp : f ≠ .icmpSum) :
    fieldRead (preparedEngine src dst pid e).pkt f = builtField src dst pid f := by
  calc fieldRead (preparedEngine src dst pid e).pkt f
    _ = fieldRead (requestHeaders src dst pid e.pkt) f :=
      (fieldRead_installChecksum_other (f := .ipSum) rfl _ _ _ hip).trans
        (fieldRead_installChecksum_other (f := .icmpSum) rfl _ _ _ hicmp)
    _ = builtField src dst pid f := fieldRead_requestHeaders src dst pid e.pkt f

theorem fieldRead_icmpSum_prepared : fieldRead (preparedEngine src dst pid e).pkt .icmpSum = 0x0000F7FF := by
  calc fieldRead (preparedEngine src dst pid e).pkt .icmpSum
    _ = (fieldChecksum 22 20 8 (requestHeaders src dst pid e.pkt)).zeroExtend 32 :=
      (fieldRead_installChecksum_other (f := .ipSum) rfl _ _ _ (by decide)).trans
        (fieldRead_installChecksum_same (f := .icmpSum) rfl _ _ _)
    _ = 0x0000F7FF := by rw [fieldChecksum_requestHeaders]; rfl

theorem wirelen_prepared : (preparedEngine src dst pid e).wirelen = 28 :=
  fieldRead_prepared src dst pid e (f := .ipLen) (by decide) (by decide)

/-- Both headers verify (spec/43_checksum_install.md R174): INSIP's field lies outside the ICMP header. -/
theorem checksum_headers_prepared :
    checksum ((preparedEngine src dst pid e).pkt.region 0 20) = 0 ∧
    checksum ((preparedEngine src dst pid e).pkt.region 20 8) = 0 := by
  constructor
  · exact checksum_region_installChecksum (j := 10) 0 _ (by decide) (by decide) (by decide)
  · rw [preparedEngine, region_congr fun k _ _ => read_installChecksum_outside 0 20 (by omega) (by omega)]
    exact checksum_region_installChecksum (j := 2) 20 _ (by decide) (by decide) (by decide)

/-- The whole buffer is the packet to send (spec/43_checksum_install.md R175). -/
theorem wirePacket_prepared :
    wirePacket (preparedEngine src dst pid e) = some ((preparedEngine src dst pid e).pkt.region 0 28) := by
  rw [wirePacket, wirelen_prepared]
  rfl

end

end Sys2Proof.Machine

open Sys2Proof Sys2Proof.Machine

/-- Settles O9: the reset event, then field by field. -/
theorem resetClearsEveryPieceOfState : Obligations.ResetClearsEveryPieceOfState := by
  unfold Obligations.ResetClearsEveryPieceOfState
  refine ⟨rfl, fun s => ⟨_, (step_waiting s .reset).trans (perform_reset s), rfl, ?_⟩⟩
  exact ⟨rfl, rfl, rfl, rfl, rfl, rfl, rfl, rfl, rfl, rfl, rfl, rfl, odd_reset, rfl, rfl, fun _ => rfl⟩

/-- Settles O10: the two reads and FINAL on the reset engine. -/
theorem firstReadsAfterReset : Obligations.FirstReadsAfterReset := by
  unfold Obligations.FirstReadsAfterReset
  exact fun agent => ⟨(step_waiting _ _).trans (perform_regRead agent .status _),
    (step_waiting _ _).trans (perform_regRead agent .wirelen _), _, exec_final_reset, rfl, rfl⟩

/-- Settles O11: the invariant of a state is that of its engine. -/
theorem invariantHoldsAtReset : Obligations.InvariantHoldsAtReset := by
  unfold Obligations.InvariantHoldsAtReset
  exact inv_reset

/-- Settles O57: the run, and then the canonical form, which makes the zeroed buffer the reset one. -/
theorem hostSequenceClearsAllButResults : Obligations.HostSequenceClearsAllButResults := by
  unfold Obligations.HostSequenceClearsAllButResults
  intro s agent hinv
  exact ⟨clearingEvents agent, _, rfl, runEvents_clearing agent s, clearedEngine_eq hinv.pkt_wf⟩

/-- Settles O58: the run, and what each clause says of the engine after it. -/
theorem prepBuildsAVerifyingEchoRequest : Obligations.PrepBuildsAVerifyingEchoRequest := by
  unfold Obligations.PrepBuildsAVerifyingEchoRequest
  intro s agent src dst pid
  obtain ⟨hip, hicmp⟩ := checksum_headers_prepared src dst pid s.engine
  refine ⟨prepEvents agent src dst pid, _, rfl, runEvents_prep agent src dst pid s, rfl, wirelen_prepared _ _ _ _, hip, hicmp,
    wirePacket_prepared _ _ _ _, fun f hf hf' => ?_, fieldRead_icmpSum_prepared _ _ _ _⟩
  rw [fieldRead_prepared _ _ _ _ hf hf']
  cases f <;> rfl

end
